-- ==== Sys2Proof/Word.lean ====
section
/-! DEFINITION. The widths the spec fixes: a character or buffer byte, a word, a token (00 R6, R10; 10 R21, R22). -/

namespace Sys2Proof

/-- A byte, and a character: 8 bits (00 R10, CHAR_BITS of R7). -/
abbrev Byte := BitVec 8

/-- A word: 16 bits (00 R6, WORD_BITS). -/
abbrev Word := BitVec 16

/-- A token in the token register: five 8-bit lanes, slot 0 in the most significant one (10 R22). -/
abbrev Token := BitVec 40

end Sys2Proof
end

