-- ==== Sys2Proof/Config.lean ====
section
/-! DEFINITION. What an implementation fixes (the alphabet ROMs, the capacities) and the free values: values the spec
leaves unspecified, of which nothing is known. -/

namespace Sys2Proof

/-- The two alphabet ROMs (10 R35, R36). The contents are held as data, so that a statement can hold for every choice
of CONS10 and CONS15 the spec allows (00 R7, 30 R82); which contents are legal is `Rom.legal`. -/
structure Rom where
  /-- CROM: the consonant alphabet, 16 entries. -/
  crom : Vector Byte 16
  /-- VROM: the vowel alphabet, 4 entries. -/
  vrom : Vector Byte 4
  deriving DecidableEq, Repr

/-- The capacities SEP_MAX, IN_MAX and OUT_MAX, OPEN parameters of 00 R7: one choice of the three numbers, or the
unbounded buffers that rule and 92 allow a model. -/
inductive Capacity where
  | unbounded
  | bounded (sepMax inMax outMax : Nat)
  deriving DecidableEq, Repr

/-- The free values: the number the `k`-th draw gives. No body, so nothing can be proved of it (93: any value). -/
opaque Config.freeValue (k : Nat) : Nat

/-- `word_o` of proquint_decode_word when `err_o` is not 0b00: unspecified (41 R130, 93 U8). The module is
combinational, so the free value is a function of its inputs. -/
opaque Config.failedWord (token_i : Token) (len_i : BitVec 3) : Word

/-- `err_slot_o` of proquint_decode_word when `err_o` is 0b00: 41 R130 gives the port no value there (log 20), so it is
a free function of the inputs of the module. -/
opaque Config.successSlot (token_i : Token) (len_i : BitVec 3) : BitVec 3

end Sys2Proof
end

