-- ==== Sys2Proof/Machine/Alphabet.lean ====
section
/-! DEFINITION. The alphabets: the ROM contents of 30 R82 and R83, and the inverse lookups CINV and VINV of R85. -/

namespace Sys2Proof

/-- The contents of CROM with the spec's defaults `p` for CONS10 and `z` for CONS15 (30 R82, 00 R7). -/
def Rom.standardConsonants : Vector Byte 16 :=
  #v[0x62#8, 0x64#8, 0x66#8, 0x67#8, 0x68#8, 0x6A#8, 0x6B#8, 0x6C#8,
     0x6D#8, 0x6E#8, 0x70#8, 0x72#8, 0x73#8, 0x74#8, 0x76#8, 0x7A#8]

/-- The contents of VROM (30 R83). -/
def Rom.standardVowels : Vector Byte 4 := #v[0x61#8, 0x69#8, 0x6F#8, 0x75#8]

/-- The ROMs with the spec's defaults. -/
def Rom.standard : Rom := ⟨Rom.standardConsonants, Rom.standardVowels⟩

/-- CROM[i]; every 4-bit index is in range (30 R86). -/
def Rom.cons (r : Rom) (i : BitVec 4) : Byte := r.crom[i.toNat]

/-- VROM[i]; every 2-bit index is in range (30 R86). -/
def Rom.vowel (r : Rom) (i : BitVec 2) : Byte := r.vrom[i.toNat]

/-- CINV: the valid bit and the consonant index of a byte; (0, 0) for a byte of no entry (30 R85). -/
def Rom.cinv (r : Rom) (c : Byte) : Bool × BitVec 4 :=
  match r.crom.toList.findIdx? (· == c) with
  | some i => (true, BitVec.ofNat 4 i)
  | none => (false, 0#4)

/-- VINV: the valid bit and the vowel index of a byte; (0, 0) for a byte of no entry (30 R85). -/
def Rom.vinv (r : Rom) (c : Byte) : Bool × BitVec 2 :=
  match r.vrom.toList.findIdx? (· == c) with
  | some i => (true, BitVec.ofNat 2 i)
  | none => (false, 0#2)

end Sys2Proof
end

