-- ==== Sys2Proof/Machine/Fields.lean ====
section
/-! DEFINITION. Operand assembly by wiring: the five fields of a word and their merging (30 R80, R86, R87), the lanes of
a token (30 R81), a word as a big-endian byte pair (20 R51, 30 R88). -/

namespace Sys2Proof

/-- The five indices of a word, most significant field first (30 R80). -/
structure Fields where
  c0 : BitVec 4
  v0 : BitVec 2
  c1 : BitVec 4
  v1 : BitVec 2
  c2 : BitVec 4
  deriving DecidableEq, Repr

/-- The splitter: w[15:12], w[11:10], w[9:6], w[5:4], w[3:0] (30 R86). -/
def splitWord (w : Word) : Fields :=
  ⟨w.extractLsb' 12 4, w.extractLsb' 10 2, w.extractLsb' 6 4, w.extractLsb' 4 2, w.extractLsb' 0 4⟩

/-- The merger: the word whose fields are the five indices, concatenated in order (30 R87). -/
def mergeFields (f : Fields) : Word := f.c0 ++ f.v0 ++ f.c1 ++ f.v1 ++ f.c2

/-- The five lanes of a token, slot 0 = T[39:32] first (10 R22). -/
def tokenLanes (t : Token) : List Byte :=
  [t.extractLsb' 32 8, t.extractLsb' 24 8, t.extractLsb' 16 8, t.extractLsb' 8 8, t.extractLsb' 0 8]

/-- The token with the given lanes, slot 0 first. -/
def tokenOfLanes (c0 c1 c2 c3 c4 : Byte) : Token := c0 ++ c1 ++ c2 ++ c3 ++ c4

/-- w[15:8], the first byte of a word in a buffer (20 R51). -/
def highByte (w : Word) : Byte := w.extractLsb' 8 8

/-- w[7:0], the second byte of a word in a buffer (20 R51). -/
def lowByte (w : Word) : Byte := w.extractLsb' 0 8

/-- The word of two consecutive buffer bytes, the first one most significant (20 R51). -/
def wordOfBytes (hi lo : Byte) : Word := hi ++ lo

end Sys2Proof
end

