-- ==== Sys2Proof/Machine/Flags.lean ====
section
/-! DEFINITION. The failures and what each writes to the status fields (30 R93, 60 R210, R211). The block has no other
flags (10 section 4). -/

namespace Sys2Proof

/-- The three failures; the taxonomy is closed (60 R210). -/
inductive Failure where
  /-- A byte buffer passed to encode-buffer has odd length (R212). -/
  | invalidInputLength
  /-- A token is not exactly 5 characters (R213). -/
  | invalidLength
  /-- A token character is not a member of its slot's alphabet (R214). -/
  | invalidSymbol
  deriving DecidableEq, Repr

/-- The two shapes of a pure function's result (00 R11): ok(v), or fail(E, tok, slot). -/
inductive Result (α : Type) where
  | ok (v : α)
  | fail (e : Failure) (tok : Nat) (slot : BitVec 3)
  deriving DecidableEq, Repr

/-- The error code of a failure (30 R93). -/
def Failure.code : Failure → BitVec 2
  | .invalidInputLength => 0b01#2
  | .invalidLength => 0b10#2
  | .invalidSymbol => 0b11#2

/-- What ERR becomes: 0b00 on success (60 R211). -/
def Result.errCode {α : Type} : Result α → BitVec 2
  | .ok _ => 0b00#2
  | .fail e _ _ => e.code

/-- What ERRTOK becomes: 0 on success (60 R211). -/
def Result.errToken {α : Type} : Result α → Nat
  | .ok _ => 0
  | .fail _ tok _ => tok

/-- What ERRSLOT becomes: 0 on success (60 R211). -/
def Result.errSlot {α : Type} : Result α → BitVec 3
  | .ok _ => 0#3
  | .fail _ _ slot => slot

/-- The lowest slot whose valid bit is 0, the slot a bad token reports (41 R133). -/
def firstBadSlot (v0 v1 v2 v3 v4 : Bool) : Option (BitVec 3) :=
  if v0 = false then some 0#3
  else if v1 = false then some 1#3
  else if v2 = false then some 2#3
  else if v3 = false then some 3#3
  else if v4 = false then some 4#3
  else none

end Sys2Proof
end

