-- ==== Sys2Proof/Machine/Codec.lean ====
section
/-! DEFINITION. The four pure functions (40 R113, 41 R135, 42 R150, 43 R170), the join and split they use (30 R90,
R91), and the two combinational modules behind the word operations (40 R110 to R112, 41 R130 to R134). Each takes the
alphabet ROMs as an argument. -/

namespace Sys2Proof

/-- proquint_encode_word: the token of a word, one ROM lookup per slot (40 R110 to R112). -/
def encodeWordModule (r : Rom) (word_i : Word) : Token :=
  let f := splitWord word_i
  tokenOfLanes (r.cons f.c0) (r.vowel f.v0) (r.cons f.c1) (r.vowel f.v1) (r.cons f.c2)

/-- The output ports of proquint_decode_word (41 R130). -/
structure DecodePorts where
  word_o : Word
  err_o : BitVec 2
  err_slot_o : BitVec 3
  deriving DecidableEq, Repr

/-- The five inverse lookups, the symbol check and the merger on five bytes (41 R131, R133, R134). -/
def decodeSymbols (r : Rom) (c0 c1 c2 c3 c4 : Byte) : Result Word :=
  let x0 := r.cinv c0
  let x1 := r.vinv c1
  let x2 := r.cinv c2
  let x3 := r.vinv c3
  let x4 := r.cinv c4
  match firstBadSlot x0.1 x1.1 x2.1 x3.1 x4.1 with
  | some k => .fail .invalidSymbol 0 k
  | none => .ok (mergeFields ⟨x0.2, x1.2, x2.2, x3.2, x4.2⟩)

/-- decode_word: a byte sequence of any length; the length is tested before the symbols (41 R135). -/
def decodeWord (r : Rom) : List Byte → Result Word
  | [c0, c1, c2, c3, c4] => decodeSymbols r c0 c1 c2 c3 c4
  | _ => .fail .invalidLength 0 0#3

/-- proquint_decode_word: the token is looked up only when `len_i` is 5 (41 R130, R132). `word_o` of a failed token is
unspecified (log 17). DESIGN CHOICE: of a decoded token the spec gives `err_slot_o` no value, and the model leaves it
free (log 20). -/
def decodeWordModule (r : Rom) (token_i : Token) (len_i : BitVec 3) : DecodePorts :=
  let res : Result Word := if len_i = 5#3 then decodeWord r (tokenLanes token_i) else .fail .invalidLength 0 0#3
  match res with
  | .ok w => ⟨w, 0b00#2, Config.successSlot token_i len_i⟩
  | .fail e _ slot => ⟨Config.failedWord token_i len_i, e.code, slot⟩

/-- The lane and length inputs the wrapper presents for a candidate: its first five bytes in lanes 0 upward and
min(n, 6) (43 R171). Lanes with no byte are ignored by the module; `filler` is what they hold. -/
def presentToken (filler : Byte) (cand : List Byte) : Token × BitVec 3 :=
  (tokenOfLanes (cand.getD 0 filler) (cand.getD 1 filler) (cand.getD 2 filler) (cand.getD 3 filler) (cand.getD 4 filler),
   BitVec.ofNat 3 (min cand.length 6))

/-- encode_word: the five characters of a word in slot order (40 R113). -/
def encodeWord (r : Rom) (w : Word) : List Byte :=
  let f := splitWord w
  [r.cons f.c0, r.vowel f.v0, r.cons f.c1, r.vowel f.v1, r.cons f.c2]

/-- The big-endian words of the consecutive 2-byte chunks (42 R150, R151); an odd last byte is no chunk. -/
def wordsOf : List Byte → List Word
  | hi :: lo :: rest => wordOfBytes hi lo :: wordsOf rest
  | _ => []

/-- join: the tokens with a copy of `sep` between consecutive ones (30 R90). -/
def joinTokens (sep : List Byte) : List (List Byte) → List Byte
  | [] => []
  | [tok] => tok
  | tok :: next :: rest => tok ++ sep ++ joinTokens sep (next :: rest)

/-- encode_buffer (42 R150). -/
def encodeBuffer (r : Rom) (data sep : List Byte) : Result (List Byte) :=
  if data.length % 2 = 1 then .fail .invalidInputLength 0 0#3
  else .ok (joinTokens sep ((wordsOf data).map (encodeWord r)))

/-- The scan of split (30 R91): `skip` bytes of a recognised separator are still to be passed over, `cur` is the
candidate being gathered. -/
def splitScan (sep : List Byte) : Nat → List Byte → List Byte → List (List Byte)
  | _, cur, [] => [cur]
  | skip + 1, cur, _ :: rest => splitScan sep skip cur rest
  | 0, cur, c :: rest =>
    if sep.isPrefixOf (c :: rest) then cur :: splitScan sep (sep.length - 1) [] rest
    else splitScan sep 0 (cur ++ [c]) rest

/-- split: the candidate tokens between the leftmost, non-overlapping occurrences of a separator of length at least 1
(30 R91). -/
def splitText (sep text : List Byte) : List (List Byte) := splitScan sep 0 [] text

/-- The candidates decoded in order from index `j` on; the first that fails decides, with its index (43 R170, R174). -/
def decodeCandidates (r : Rom) : Nat → List (List Byte) → Result (List Byte)
  | _, [] => .ok []
  | j, cand :: rest =>
    match decodeWord r cand with
    | .fail e _ slot => .fail e j slot
    | .ok w =>
      match decodeCandidates r (j + 1) rest with
      | .fail e tok slot => .fail e tok slot
      | .ok out => .ok (highByte w :: lowByte w :: out)

/-- decode_buffer, for a separator of length at least 1 (43 R170). -/
def decodeBuffer (r : Rom) (text sep : List Byte) : Result (List Byte) :=
  decodeCandidates r 0 (splitText sep text)

end Sys2Proof
end

