-- ==== Sys2Proof/Syntax.lean ====
section
/-! DEFINITION. The instructions: the four operations of 30 R92, one constructor per row of opcode_table.json. A
command has no operand field: every operand is in a register or a buffer (R92). -/

namespace Sys2Proof

inductive Instr where
  /-- ENCW, encode-word (40 R114). -/
  | encw
  /-- DECW, decode-word (41 R136). -/
  | decw
  /-- ENCB, encode-buffer (42 R153). -/
  | encb
  /-- DECB, decode-buffer (43 R173). -/
  | decb
  deriving DecidableEq, Repr

end Sys2Proof
end

