-- ==== Sys2Proof/WellFormed.lean ====
section
/-! DEFINITION. Well-formedness: of an instruction (it has no fields, 30 R92), of the alphabet ROMs (30 R82 to R84) and
of the capacities (00 R7, R8). -/

namespace Sys2Proof

/-- Every operation is well formed: there is no immediate, no register number, no reserved form (30 R92, R96). -/
def Instr.wellFormed : Instr → Bool
  | .encw => true
  | .decw => true
  | .encb => true
  | .decb => true

/-- The byte is a lowercase letter other than `w` and `e`: what the source says of each open consonant beside being
distinct from the other symbols (30 R82, 92 D2). -/
def Rom.openSymbol (c : Byte) : Bool :=
  decide (0x61#8 ≤ c ∧ c ≤ 0x7A#8) && c != 0x77#8 && c != 0x65#8

/-- The twenty symbols, consonants first. -/
def Rom.symbols (r : Rom) : List Byte := r.crom.toList ++ r.vrom.toList

/-- The consonant entries the source's vectors fix: indices 0 to 9 and 11 to 14 (30 R82). -/
def Rom.consonantsFixed (r : Rom) : Bool :=
  r.crom.toList.take 10 == [0x62#8, 0x64#8, 0x66#8, 0x67#8, 0x68#8, 0x6A#8, 0x6B#8, 0x6C#8, 0x6D#8, 0x6E#8]
    && (r.crom.toList.drop 11).take 4 == [0x72#8, 0x73#8, 0x74#8, 0x76#8]

/-- The vowel entries, all fixed by the source's vectors (30 R83). -/
def Rom.vowelsFixed (r : Rom) : Bool :=
  r.vrom.toList == [0x61#8, 0x69#8, 0x6F#8, 0x75#8]

/-- The ROM contents the spec allows: the entries the source fixes, CONS10 and CONS15 under their constraints, and the
twenty symbols pairwise different (30 R82, R83, R84). -/
def Rom.legal (r : Rom) : Bool :=
  r.consonantsFixed && r.vowelsFixed && Rom.openSymbol r.crom[10] && Rom.openSymbol r.crom[15]
    && decide r.symbols.Nodup

/-- The capacities the spec allows: SEP_MAX at least 1 (00 R7) and OUT_MAX large enough that no command can need more
(00 R8, with NMAX = IN_MAX / 2). -/
def Capacity.legal : Capacity → Bool
  | .unbounded => true
  | .bounded sepMax inMax outMax =>
    decide (1 ≤ sepMax) && (inMax / 2 == 0 || decide (5 * (inMax / 2) + (inMax / 2 - 1) * sepMax ≤ outMax))

end Sys2Proof
end

