-- ==== Sys2Proof/Decode.lean ====
section
/-! DEFINITION. The command format of 30 R92 in both directions: from the two bits of OP, and from the byte in which an
operation code is laid down for writing to OP; then the encoder. -/

namespace Sys2Proof

/-- Why a byte sequence names no operation. -/
inductive DecodeError where
  /-- There is no byte. -/
  | noByte
  /-- The byte has a bit above OP[1:0] set: it is no 2-bit operation code (30 R92). -/
  | notAnOperationCode (b : Byte)
  deriving DecidableEq, Repr

/-- The operation each of the four values of OP selects (30 R92); total, no value is reserved (R96, 44 R197). -/
def decodeOp (op : BitVec 2) : Instr :=
  match op[1], op[0] with
  | false, false => .encw
  | false, true => .decw
  | true, false => .encb
  | true, true => .decb

/-- The operation at the head of a byte sequence, with the bytes after it. An operation code is one byte whose two low
bits are OP[1:0] and whose other bits are 0. -/
def decode : List Byte → Except DecodeError (Instr × List Byte)
  | [] => .error .noByte
  | b :: rest =>
    if b.extractLsb' 2 6 = 0#6 then .ok (decodeOp (b.extractLsb' 0 2), rest)
    else .error (.notAnOperationCode b)

/-- The operation code of each operation (30 R92). -/
def encodeOp : Instr → BitVec 2
  | .encw => 0b00#2
  | .decw => 0b01#2
  | .encb => 0b10#2
  | .decb => 0b11#2

/-- The bytes of an operation: its code in one byte. -/
def encode (i : Instr) : List Byte := [(encodeOp i).zeroExtend 8]

/-- The low `n` bytes of `w`, least significant byte first. -/
def wordBytes : Nat → Nat → List Byte
  | 0, _ => []
  | n + 1, w => BitVec.ofNat 8 w :: wordBytes n (w / 256)

/-- The instruction the decoder reads from `nbits` bits of value `w` numbered as opcode_table.json numbers them. The
table gives a row 2 bits, the value of OP; an instruction is one byte long, and its bits above `nbits` are 0. -/
def decodeTableWord (nbits w : Nat) : Option Instr :=
  match decode (wordBytes (max 1 ((nbits + 7) / 8)) (w % 2 ^ nbits)) with
  | .ok (i, rest) => if rest.all (· == 0#8) then some i else none
  | .error _ => none

/-- One row of opcode_table.json: the mnemonic and the code it is matched by, on all the bits of OP. -/
structure OpRow where
  mnemonic : String
  mask : BitVec 2
  pattern : BitVec 2
  deriving DecidableEq, Repr

/-- The four rows of opcode_table.json. -/
def opTable : List OpRow :=
  [⟨"ENCW", 0b11#2, 0b00#2⟩, ⟨"DECW", 0b11#2, 0b01#2⟩, ⟨"ENCB", 0b11#2, 0b10#2⟩, ⟨"DECB", 0b11#2, 0b11#2⟩]

end Sys2Proof
end

