-- ==== Sys2Proof/Machine/State.lean ====
section
/-! DEFINITION. The state of the block (10 R20, "the complete state"), the moves its environment can make (44 R191,
70 R240), why a step can stop, and the state after reset (10 R39). -/

namespace Sys2Proof.Machine

/-- A byte memory: (address, byte) pairs, addresses strictly rising. What an unlisted address reads as is
`Space.unlisted`. -/
abbrev Memory := List Host.Cell

/-- The byte spaces that hold more than a constant: the IN and OUT buffers (20 R50) and the separator bytes (10 R25). -/
inductive Space where
  | inBuf
  | outBuf
  | sep
  deriving DecidableEq, Repr

/-- HostWrite of a register, a status field or a buffer byte, with its value (44 R191). -/
inductive HostWrite where
  | w (v : Word)
  | t (v : Token)
  | tlen (v : BitVec 3)
  | op (v : BitVec 2)
  | seplen (n : Nat)
  | sep (j : Nat) (b : Byte)
  | inlen (n : Nat)
  /-- HostWriteIn(a, b). -/
  | inByte (a : Nat) (b : Byte)
  | outlen (n : Nat)
  | busy (v : Bool)
  | done (v : Bool)
  | err (v : BitVec 2)
  | errtok (n : Nat)
  | errslot (v : BitVec 3)
  | outByte (a : Nat) (b : Byte)
  deriving DecidableEq, Repr

/-- HostRead of a register, a status field or a buffer byte (44 R191; reading IN back: 10 R38). -/
inductive HostRead where
  | w
  | t
  | tlen
  | op
  | seplen
  | sep (j : Nat)
  | inlen
  | outlen
  | busy
  | done
  | err
  | errtok
  | errslot
  | inByte (a : Nat)
  /-- HostReadOut(a). -/
  | outByte (a : Nat)
  deriving DecidableEq, Repr

/-- The host operations (44 R191). -/
inductive HostOp where
  | write (x : HostWrite)
  | read (x : HostRead)
  /-- HostStart. -/
  | start
  deriving DecidableEq, Repr

/-- One move of one agent: the host, the block, or the reset event (44 R190, 70 R240). -/
inductive Turn where
  | host (x : HostOp)
  | block
  | reset
  deriving DecidableEq, Repr

/-- What one host read returned, as an unsigned integer (00 R9). -/
structure Answer where
  source : HostRead
  value : Nat
  deriving DecidableEq, Repr

/-- Why the machine stops with a fault. -/
inductive Fault where
  /-- Raised by ENCB with INLEN even and by DECB with SEPLEN at least 1, where a byte of IN[0..INLEN-1] has not been
  written since reset: the byte has no value (93 U5, 44 R200 H5). Safe: the hardware goes on with some byte. -/
  | unwrittenInput
  /-- Raised by a host access to IN or SEP at an index at or above the capacity, and by a host read of OUT at or above
  OUT_MAX: no such location (44 R191, 20 R60). Safe: the spec gives such an access no meaning. -/
  | noSuchIndex
  deriving DecidableEq, Repr

/-- Why the machine gives a step no meaning. -/
inductive Refusal where
  /-- Raised by an arm of exec whose instruction has no meaning yet; no arm does. Safe. -/
  | notModelled (mnemonic : String)
  /-- Raised by a host write, while BUSY is 0, of SEPLEN above SEP_MAX or of INLEN above IN_MAX: a breach of the host's
  duties H5, H6 (44 R200, 93 U10). Safe: the spec gives such a host no move. -/
  | lengthAboveCapacity
  /-- Raised by `dutyStep`, and not by `step`, where the block would complete a DECB with SEPLEN = 0: a breach of the
  host's duty H7 (44 R200, 43 R179, 93 U3). Safe: the spec gives the results of that command no meaning. -/
  | emptySeparator
  deriving DecidableEq, Repr

/-- The state. The fields from `w` to `rom` are the block's, every one of 10 R20 and nothing else; the fields from
`cap` on are the model's own. -/
structure State where
  /-- W, the word register (R21). -/
  w : Word
  /-- T, the token register (R22). -/
  t : Token
  /-- TLEN, the token length register (R23). -/
  tlen : BitVec 3
  /-- OP, the operation select register (R24). -/
  op : BitVec 2
  /-- SEPLEN, the length of the separator (R25). -/
  seplen : Nat
  /-- SEP, the separator's bytes (R25). -/
  sep : Memory
  /-- INLEN, the number of valid bytes in IN (R26). -/
  inlen : Nat
  /-- OUTLEN, the number of valid bytes in OUT (R27). -/
  outlen : Nat
  /-- BUSY (R28). -/
  busy : Bool
  /-- DONE (R29). -/
  done : Bool
  /-- ERR, the error code of the last completed command (R30). -/
  err : BitVec 2
  /-- ERRTOK, the index of the failing candidate (R31). -/
  errtok : Nat
  /-- ERRSLOT, the slot of the failing character (R32). -/
  errslot : BitVec 3
  /-- IN, the input buffer (R33). -/
  inBuf : Memory
  /-- OUT, the output buffer (R34). -/
  outBuf : Memory
  /-- CROM and VROM (R35, R36). -/
  rom : Rom
  /-- MODEL: the capacities of this instance of the block, which no step changes (00 R7). -/
  cap : Capacity
  /-- MODEL: the moves still to come, the next one first; after the last one every move is the block's. -/
  turns : List Turn
  /-- MODEL: what the host's reads returned, the latest one first. -/
  answers : List Answer
  /-- MODEL: how many free values have been drawn. -/
  draws : Nat
  /-- MODEL: DECB has completed with SEPLEN = 0 since the last reset (43 R179; 93 "marks the run"). -/
  offSpec : Bool
  deriving DecidableEq, Repr

/-- The machine right after reset (10 R39), with the spec's default ROM contents, unbounded buffers and no move of the
host to come. -/
def State.reset : State where
  w := 0x0000#16
  t := 0x0000000000#40
  tlen := 0#3
  op := 0b00#2
  seplen := 1
  sep := [(0, 0x2D#8)]
  inlen := 0
  outlen := 0
  busy := false
  done := false
  err := 0b00#2
  errtok := 0
  errslot := 0#3
  inBuf := []
  outBuf := []
  rom := Rom.standard
  cap := .unbounded
  turns := []
  answers := []
  draws := 0
  offSpec := false

end Sys2Proof.Machine
end

