-- ==== Sys2Proof/Machine/Ops.lean ====
section
/-! DEFINITION. The named operations over memory and registers: the limits the capacities set, byte memories, accepting a START, completing a command
(with or without a failure), drawing free values, the reset event. -/

namespace Sys2Proof

/-- SEP_MAX; none where the separator is unbounded. -/
def Capacity.sepMax : Capacity → Option Nat
  | .unbounded => none
  | .bounded m _ _ => some m

/-- IN_MAX; none where IN is unbounded. -/
def Capacity.inMax : Capacity → Option Nat
  | .unbounded => none
  | .bounded _ m _ => some m

/-- OUT_MAX; none where OUT is unbounded. -/
def Capacity.outMax : Capacity → Option Nat
  | .unbounded => none
  | .bounded _ _ m => some m

/-- `a` is an index of a space of the given size. -/
def Capacity.hasIndex : Option Nat → Nat → Bool
  | none, _ => true
  | some m, a => decide (a < m)

/-- `n` is a length a space of the given size can hold. -/
def Capacity.holds : Option Nat → Nat → Bool
  | none, _ => true
  | some m, n => decide (n ≤ m)

/-- An arbitrary number brought into the range 0..m of a length register; every number of the range is reached. -/
def Capacity.fit : Option Nat → Nat → Nat
  | none, n => n
  | some m, n => n % (m + 1)

end Sys2Proof

namespace Sys2Proof.Machine

/-- What SEP[j] holds where nothing but 0x00 has been written to it (10 R39). -/
def sepUnlisted : Byte := 0x00#8

/-- What an unlisted address reads as: no value in IN and OUT (10 R33, R34), 0x00 in SEP (R39). -/
def Space.unlisted : Space → Option Byte
  | .inBuf => none
  | .outBuf => none
  | .sep => some sepUnlisted

/-- The byte listed at an address. -/
def Memory.find : Memory → Nat → Option Byte
  | [], _ => none
  | (k, b) :: rest, a => if k = a then some b else Memory.find rest a

/-- The byte an address reads as; none where it has no value. -/
def Memory.read (sp : Space) (m : Memory) (a : Nat) : Option Byte :=
  match Memory.find m a with
  | some b => some b
  | none => sp.unlisted

/-- The listing with `b` at address `a`, in its place among rising addresses. -/
def Memory.insert : Memory → Nat → Byte → Memory
  | [], a, b => [(a, b)]
  | (k, c) :: rest, a, b =>
    if a < k then (a, b) :: (k, c) :: rest
    else if a = k then (a, b) :: rest
    else (k, c) :: Memory.insert rest a b

/-- Write a byte; writing what an unlisted address reads as removes the entry. -/
def Memory.write (sp : Space) (m : Memory) (a : Nat) (b : Byte) : Memory :=
  if sp.unlisted = some b then m.filter (fun c => c.1 != a) else Memory.insert m a b

/-- The bytes of `n` consecutive addresses from `a` on; none where one of them has no value. -/
def Memory.readBytes (sp : Space) (m : Memory) (a : Nat) : Nat → Option (List Byte)
  | 0 => some []
  | n + 1 =>
    match Memory.read sp m a, Memory.readBytes sp m (a + 1) n with
    | some b, some bs => some (b :: bs)
    | _, _ => none

/-- The memory that holds the given bytes at consecutive addresses from `a` on and no value elsewhere. -/
def Memory.ofBytes : Nat → List Byte → Memory
  | _, [] => []
  | a, b :: bs => (a, b) :: Memory.ofBytes (a + 1) bs

/-- The canonical form: addresses strictly rising, and no entry equal to what an unlisted address reads as. -/
abbrev Memory.wf (sp : Space) (m : Memory) : Prop :=
  m.Pairwise (fun x y => x.1 < y.1) ∧ ∀ c ∈ m, some c.2 ≠ sp.unlisted

/-- The three byte memories are in canonical form. -/
abbrev State.memWf (s : State) : Prop :=
  Memory.wf .inBuf s.inBuf ∧ Memory.wf .outBuf s.outBuf ∧ Memory.wf .sep s.sep

/-- The accepted START (44 R192). -/
def State.accept (s : State) : State := { s with busy := true, done := false }

/-- The end of every completion: the status fields written, BUSY cleared, DONE set (44 R193). A failed command
completes in the same way (60 R217): nothing is entered, so there is nothing to return from (60 R219). -/
def State.complete (s : State) (err : BitVec 2) (errtok : Nat) (errslot : BitVec 3) : State :=
  { s with err := err, errtok := errtok, errslot := errslot, busy := false, done := true }

/-- The completion with the status a pure function's result gives (60 R211). -/
def State.report {α : Type} (s : State) (r : Result α) : State :=
  s.complete r.errCode r.errToken r.errSlot

/-- OUT and OUTLEN after a buffer command: the result's bytes, no value beyond them, and nothing at all after a failure
(10 R27, R34; 60 R217). -/
def State.setOut (s : State) (bytes : List Byte) : State :=
  { s with outBuf := Memory.ofBytes 0 bytes, outlen := bytes.length }

/-- The bytes a buffer command's result leaves in OUT. -/
def resultBytes : Result (List Byte) → List Byte
  | .ok bytes => bytes
  | .fail _ _ _ => []

/-- The completion of a buffer command (42 R153, 43 R173). -/
def State.finishBuffer (s : State) (r : Result (List Byte)) : State :=
  (s.setOut (resultBytes r)).report r

/-- The completion of DECB with SEPLEN = 0 (43 R179): BUSY and DONE as for every command; ERR, ERRTOK, ERRSLOT, OUTLEN
and OUT unspecified, the first four free values in their registers' ranges, OUT without values; the run is marked. -/
def State.completeUnspecified (s : State) : State :=
  { s with
    outBuf := []
    outlen := Capacity.fit s.cap.outMax (Config.freeValue s.draws)
    err := BitVec.ofNat 2 (Config.freeValue (s.draws + 1))
    errtok := Capacity.fit s.cap.inMax (Config.freeValue (s.draws + 2))
    errslot := BitVec.ofNat 3 (Config.freeValue (s.draws + 3))
    busy := false
    done := true
    draws := s.draws + 4
    offSpec := true }

/-- A read returned `v` to the host; a read changes nothing of the block (20 R58). -/
def State.answer (s : State) (x : HostRead) (v : Nat) : State :=
  { s with answers := ⟨x, v⟩ :: s.answers }

/-- A read drew a free value, narrowed to the field's range by `narrow` (44 R195). -/
def State.answerFree (s : State) (x : HostRead) (narrow : Nat → Nat) : State :=
  { s with answers := ⟨x, narrow (Config.freeValue s.draws)⟩ :: s.answers, draws := s.draws + 1 }

/-- The reset event (70 R240, R242): every register as 10 R39 says, whether or not a command was running. The ROMs are
constants; the capacities, the moves to come and the host's own record are not the block's. -/
def State.resetEvent (s : State) : State :=
  { State.reset with
    rom := s.rom, cap := s.cap, turns := s.turns, answers := s.answers, draws := s.draws }

end Sys2Proof.Machine
end

