-- ==== Sys2Proof/Machine/Operands.lean ====
section
/-! DEFINITION. The operands of the commands as the state holds them: the operation OP selects, the separator, the
input bytes. -/

namespace Sys2Proof.Machine

/-- The operation OP selects (30 R92, 44 R197). -/
def State.selected (s : State) : Instr := decodeOp s.op

/-- SEP[j] (10 R25). -/
def State.sepByte (s : State) (j : Nat) : Byte := (Memory.find s.sep j).getD sepUnlisted

/-- The separator value SEP[0..SEPLEN-1] (10 R25). -/
def State.sepBytes (s : State) : List Byte := (List.range s.seplen).map s.sepByte

/-- IN[a]; none where nothing has written it since reset (10 R33). -/
def State.inByte (s : State) (a : Nat) : Option Byte := Memory.read .inBuf s.inBuf a

/-- OUT[a]; none where it has no value (10 R34). -/
def State.outByte (s : State) (a : Nat) : Option Byte := Memory.read .outBuf s.outBuf a

/-- The operand IN[0..INLEN-1] of a buffer command (10 R26). -/
def State.inBytes (s : State) : Option (List Byte) := Memory.readBytes .inBuf s.inBuf 0 s.inlen

end Sys2Proof.Machine
end

