-- ==== Sys2Proof/Machine/BufferCommands.lean ====
section
/-! DEFINITION. The completions of the buffer commands ENCB (42 R153) and DECB (43 R173). -/

namespace Sys2Proof.Machine

/-- ENCB: an odd INLEN is decided before any byte is read (42 R153, 60 R216). -/
def execEncb (s : State) : Host.Outcome State Fault Refusal :=
  if s.inlen % 2 = 1 then .next (s.finishBuffer (.fail .invalidInputLength 0 0#3))
  else match s.inBytes with
    | some data => .next (s.finishBuffer (encodeBuffer s.rom data s.sepBytes))
    | none => .fault .unwrittenInput

/-- DECB: with SEPLEN at least 1 the text is split and decoded (43 R173); with SEPLEN = 0 the command completes and its
results are unspecified (43 R179); `dutyStep` refuses it (44 R200 H7). -/
def execDecb (s : State) : Host.Outcome State Fault Refusal :=
  if s.seplen = 0 then .next s.completeUnspecified
  else match s.inBytes with
    | some text => .next (s.finishBuffer (decodeBuffer s.rom text s.sepBytes))
    | none => .fault .unwrittenInput

end Sys2Proof.Machine
end

