-- ==== Sys2Proof/Machine/WordCommands.lean ====
section
/-! DEFINITION. The completions of the word commands ENCW (40 R114) and DECW (41 R136). -/

namespace Sys2Proof.Machine

/-- ENCW: T takes the token of W, TLEN becomes 5; it never fails (40 R114). -/
def execEncw (s : State) : Host.Outcome State Fault Refusal :=
  .next ({ s with t := encodeWordModule s.rom s.w, tlen := 5#3 }.complete 0b00#2 0 0#3)

/-- DECW: the outputs of proquint_decode_word on T and TLEN; W is written on success only, ERRTOK is 0, and ERRSLOT
takes the reported slot of a failure and 0 on success (41 R136). -/
def execDecw (s : State) : Host.Outcome State Fault Refusal :=
  let ports := decodeWordModule s.rom s.t s.tlen
  .next ({ s with w := if ports.err_o = 0b00#2 then ports.word_o else s.w }.complete ports.err_o 0
    (if ports.err_o = 0b00#2 then 0#3 else ports.err_slot_o))

end Sys2Proof.Machine
end

