-- ==== Sys2Proof/Machine/Dispatch.lean ====
section
/-! DEFINITION. The completion step of each operation, by its constructor (44 R193, R197). -/

namespace Sys2Proof.Machine

def exec (i : Instr) (s : State) : Host.Outcome State Fault Refusal :=
  match i with
  | .encw => Sys2Proof.Machine.execEncw s
  | .decw => Sys2Proof.Machine.execDecw s
  | .encb => Sys2Proof.Machine.execEncb s
  | .decb => Sys2Proof.Machine.execDecb s

end Sys2Proof.Machine
end

