-- ==== Sys2Proof/Machine/BlockTurn.lean ====
section
/-! DEFINITION. The block's own turn. -/

namespace Sys2Proof.Machine

/-- The block's turn: the completion of the selected operation while BUSY is 1 (44 R193); idle otherwise, since nothing
runs by itself (44 R197). -/
def State.blockTurn (s : State) : Host.Outcome State Fault Refusal :=
  if s.busy then exec s.selected s else .next s

end Sys2Proof.Machine
end

