-- ==== Sys2Proof/Machine/HostAccess.lean ====
section
/-! DEFINITION. The host operations of 44 R191: writes, reads, HostStart. -/

namespace Sys2Proof.Machine

/-- The location the write names exists in an instance with these capacities: SEP[j] with j below SEP_MAX, IN[a] with a
below IN_MAX (44 R191). A write to OUT is ignored at every index. -/
def HostWrite.located (c : Capacity) : HostWrite → Bool
  | .sep j _ => Capacity.hasIndex c.sepMax j
  | .inByte a _ => Capacity.hasIndex c.inMax a
  | .w _ | .t _ | .tlen _ | .op _ | .seplen _ | .inlen _ => true
  | .outlen _ | .busy _ | .done _ | .err _ | .errtok _ | .errslot _ | .outByte _ _ => true

/-- The length a write gives SEPLEN or INLEN is one its buffer can hold (10 R25, R26). -/
def HostWrite.lengthHeld (c : Capacity) : HostWrite → Bool
  | .seplen n => Capacity.holds c.sepMax n
  | .inlen n => Capacity.holds c.inMax n
  | .w _ | .t _ | .tlen _ | .op _ | .sep _ _ | .inByte _ _ => true
  | .outlen _ | .busy _ | .done _ | .err _ | .errtok _ | .errslot _ | .outByte _ _ => true

/-- The effect of a host write while BUSY is 0; the fields that are read-only to the host are not changed (44 R191). -/
def State.applyWrite (s : State) : HostWrite → State
  | .w v => { s with w := v }
  | .t v => { s with t := v }
  | .tlen v => { s with tlen := v }
  | .op v => { s with op := v }
  | .seplen n => { s with seplen := n }
  | .sep j b => { s with sep := Memory.write .sep s.sep j b }
  | .inlen n => { s with inlen := n }
  | .inByte a b => { s with inBuf := Memory.write .inBuf s.inBuf a b }
  | .outlen _ | .busy _ | .done _ | .err _ | .errtok _ | .errslot _ | .outByte _ _ => s

/-- A host write: dropped while BUSY is 1 (44 R194). -/
def State.hostWrite (s : State) (x : HostWrite) : Host.Outcome State Fault Refusal :=
  if x.located s.cap = false then .fault .noSuchIndex
  else if s.busy then .next s
  else if x.lengthHeld s.cap = false then .refused .lengthAboveCapacity
  else .next (s.applyWrite x)

/-- The location the read names exists: SEP[j], IN[a] and OUT[a] below their capacities (44 R191). -/
def HostRead.located (c : Capacity) : HostRead → Bool
  | .sep j => Capacity.hasIndex c.sepMax j
  | .inByte a => Capacity.hasIndex c.inMax a
  | .outByte a => Capacity.hasIndex c.outMax a
  | .w | .t | .tlen | .op | .seplen | .inlen | .outlen | .busy | .done | .err | .errtok | .errslot => true

/-- An arbitrary number narrowed to the range of what is read: its width in bits, or the range of a length register
(10 R20). -/
def HostRead.narrow (c : Capacity) (x : HostRead) (n : Nat) : Nat :=
  match x with
  | .w => n % 2 ^ 16
  | .t => n % 2 ^ 40
  | .tlen | .errslot => n % 2 ^ 3
  | .op | .err => n % 2 ^ 2
  | .busy | .done => n % 2
  | .seplen => Capacity.fit c.sepMax n
  | .inlen | .errtok => Capacity.fit c.inMax n
  | .outlen => Capacity.fit c.outMax n
  | .sep _ | .inByte _ | .outByte _ => n % 2 ^ 8

/-- The value of what is read while BUSY is 0; none where the spec leaves it unspecified: OUT at OUTLEN and above
(10 R34), a byte of IN nothing has written (R33). -/
def State.settled (s : State) : HostRead → Option Nat
  | .w => some s.w.toNat
  | .t => some s.t.toNat
  | .tlen => some s.tlen.toNat
  | .op => some s.op.toNat
  | .seplen => some s.seplen
  | .sep j => some (s.sepByte j).toNat
  | .inlen => some s.inlen
  | .outlen => some s.outlen
  | .busy => some s.busy.toNat
  | .done => some s.done.toNat
  | .err => some s.err.toNat
  | .errtok => some s.errtok
  | .errslot => some s.errslot.toNat
  | .inByte a => (s.inByte a).map BitVec.toNat
  | .outByte a => if a < s.outlen then (s.outByte a).map BitVec.toNat else none

/-- BUSY and DONE, the two fields a read returns at any time (44 R191). -/
def HostRead.always : HostRead → Bool
  | .busy | .done => true
  | .w | .t | .tlen | .op | .seplen | .sep _ | .inlen | .outlen | .err | .errtok | .errslot => false
  | .inByte _ | .outByte _ => false

/-- The value a read returns, or none for an unspecified one: while BUSY is 1 that is every read but those of BUSY and
DONE (44 R195). -/
def State.readable (s : State) (x : HostRead) : Option Nat :=
  if s.busy && !x.always then none else s.settled x

/-- A host read: the value goes to the host and the block is unchanged (44 R191, 20 R58). -/
def State.hostRead (s : State) (x : HostRead) : Host.Outcome State Fault Refusal :=
  if x.located s.cap = false then .fault .noSuchIndex
  else match s.readable x with
    | some v => .next (s.answer x v)
    | none => .next (s.answerFree x (x.narrow s.cap))

/-- HostStart: accepted while BUSY is 0 (44 R192), ignored while it is 1 (R196). -/
def State.hostStart (s : State) : State := if s.busy then s else s.accept

/-- One host operation (44 R191). -/
def State.hostTurn (s : State) : HostOp → Host.Outcome State Fault Refusal
  | .write x => s.hostWrite x
  | .read x => s.hostRead x
  | .start => .next s.hostStart

end Sys2Proof.Machine
end

