-- ==== Sys2Proof/Machine/Step.lean ====
section
/-! DEFINITION. One step of the machine: the next move of the host, the block or the reset event. -/

namespace Sys2Proof.Machine

/-- One step. With no move left in `turns`, it is the block's turn. -/
def step (s : State) : Host.Outcome State Fault Refusal :=
  match s.turns with
  | [] => s.blockTurn
  | .block :: rest => State.blockTurn { s with turns := rest }
  | .host x :: rest => State.hostTurn { s with turns := rest } x
  | .reset :: rest => .next (State.resetEvent { s with turns := rest })

/-- `s` with the operation code `w` in OP and its START accepted (44 R192), and the block's turn next. An operation is
not fetched from memory: the host loads OP and starts it (10 R37), and this stands for that. `nbits` is not needed:
OP holds the whole code. -/
def State.withFetchWord (s : State) (_nbits w : Nat) : State :=
  { s with
    op := BitVec.ofNat 2 w
    busy := true
    done := false
    turns := match s.turns with
      | [] => []
      | turn :: rest => .block :: turn :: rest }

end Sys2Proof.Machine
end

