-- ==== Sys2Proof/Machine/Duty.lean ====
section
/-! DEFINITION. The refusal of 44 R200 H7: a run in which the command without a defined meaning is refused. -/

namespace Sys2Proof.Machine

/-- The next move is the block's. -/
def State.blockDue (s : State) : Bool :=
  match s.turns with
  | [] => true
  | .block :: _ => true
  | .host _ :: _ => false
  | .reset :: _ => false

/-- The next step would complete a DECB started with SEPLEN = 0, against the host's duty H7 (43 R179, 44 R200). -/
def State.emptySeparatorDue (s : State) : Bool :=
  s.blockDue && s.busy && s.selected == .decb && s.seplen == 0

/-- One step where the model refuses a DECB with SEPLEN = 0 (43 R179, 44 R200 H7, 93 U3), and `step` everywhere else.
`step` itself completes that command as R179 says the hardware does (log 8). -/
def dutyStep (s : State) : Host.Outcome State Fault Refusal :=
  if s.emptySeparatorDue then .refused .emptySeparator else step s

end Sys2Proof.Machine
end

