-- ==== Sys2Proof/Safety.lean ====
section
/-! DEFINITION. What the claims are said in: the state after reset as the spec lists it, the invariants of the machine,
the operands and the results of a command, which agent's turn it is, what a safe step is. -/

namespace Sys2Proof

/-- The character `c` is a member of the alphabet of slot `k`: slots 0, 2, 4 are consonants, 1 and 3 vowels (30 R81). -/
def Rom.memberAt (r : Rom) (k : Nat) (c : Byte) : Prop :=
  if k % 2 = 0 then c ∈ r.crom.toList else c ∈ r.vrom.toList

/-- The token has five bytes, and slot `k` is the lowest whose byte is not in its slot's alphabet (60 R211). -/
def lowestBadSlot (r : Rom) (token : List Byte) (k : Nat) : Prop :=
  token.length = 5 ∧ (∃ c, token[k]? = some c ∧ ¬ r.memberAt k c) ∧
    ∀ j c, j < k → token[j]? = some c → r.memberAt j c

/-- `cand` is the candidate at index `j`, and every candidate before it decodes (43 R174). -/
def reachesCandidate (r : Rom) (cands : List (List Byte)) (j : Nat) (cand : List Byte) : Prop :=
  cands[j]? = some cand ∧ ∀ i c, i < j → cands[i]? = some c → ∃ w, decodeWord r c = .ok w

/-- The 40-bit value with the given symbols in the lanes of slots 0 to 4 (10 R22). -/
def tokenOfIndices (r : Rom) (i0 : BitVec 4) (i1 : BitVec 2) (i2 : BitVec 4) (i3 : BitVec 2) (i4 : BitVec 4) : Token :=
  r.cons i0 ++ r.vowel i1 ++ r.cons i2 ++ r.vowel i3 ++ r.cons i4

end Sys2Proof

namespace Sys2Proof.Machine

/-- The values 10 R39 lists for the state after reset; IN and OUT hold no value. Of the ROMs it says that they hold the
contents of 30 R82 and R83. -/
def State.AtReset (s : State) : Prop :=
  s.w = 0x0000#16 ∧ s.t = 0x0000000000#40 ∧ s.tlen = 0#3 ∧ s.op = 0b00#2
    ∧ s.seplen = 1 ∧ s.sepByte 0 = 0x2D#8 ∧ (∀ j, 0 < j → s.sepByte j = 0x00#8)
    ∧ s.inlen = 0 ∧ s.outlen = 0 ∧ s.busy = false ∧ s.done = false
    ∧ s.err = 0b00#2 ∧ s.errtok = 0 ∧ s.errslot = 0#3
    ∧ (∀ a, s.inByte a = none) ∧ (∀ a, s.outByte a = none)

/-- The next move is the block's. -/
def State.blockNext (s : State) : Prop := s.turns = [] ∨ ∃ rest, s.turns = .block :: rest

/-- The next move is this host operation. -/
def State.hostNext (s : State) (x : HostOp) : Prop := ∃ rest, s.turns = .host x :: rest

/-- The next move is the reset event. -/
def State.resetNext (s : State) : Prop := ∃ rest, s.turns = .reset :: rest

/-- A step that goes on: neither a fault nor a refusal. -/
def safeStep (s : State) : Prop := ∃ t, step s = .next t

/-- The command is DECB with the empty separator, whose results are unspecified (43 R179). -/
def emptySeparator (i : Instr) (s : State) : Prop := i = .decb ∧ s.seplen = 0

/-- A word command: it touches neither IN nor OUT (20 R50). -/
def isWordCommand (i : Instr) : Prop := i = .encw ∨ i = .decw

/-- Every byte of IN[0..INLEN-1] has been written since reset (44 R200 H5). -/
def State.inputWritten (s : State) : Prop := ∀ a, a < s.inlen → s.inByte a ≠ none

/-- The bytes `data` are the operand IN[0..INLEN-1]. -/
def State.inputIs (s : State) (data : List Byte) : Prop :=
  data.length = s.inlen ∧ ∀ a, a < s.inlen → s.inByte a = data[a]?

/-- No byte of the separator is one of the twenty alphabet symbols (43 R177). -/
def separatorForeign (r : Rom) (sep : List Byte) : Prop := ∀ b ∈ sep, b ∉ r.symbols

/-- The two states hold the same operands of command `i`, each rule's own list (40 R114, 41 R136, 42 R153, 43 R173). -/
def sameOperands : Instr → State → State → Prop
  | .encw, s, s' => s.rom = s'.rom ∧ s.w = s'.w
  | .decw, s, s' => s.rom = s'.rom ∧ s.t = s'.t ∧ s.tlen = s'.tlen
  | .encb, s, s' => s.rom = s'.rom ∧ s.inlen = s'.inlen ∧ (∀ a, a < s.inlen → s.inByte a = s'.inByte a)
      ∧ s.seplen = s'.seplen ∧ ∀ j, j < s.seplen → s.sepByte j = s'.sepByte j
  | .decb, s, s' => s.rom = s'.rom ∧ s.inlen = s'.inlen ∧ (∀ a, a < s.inlen → s.inByte a = s'.inByte a)
      ∧ s.seplen = s'.seplen ∧ ∀ j, j < s.seplen → s.sepByte j = s'.sepByte j

/-- The two states hold the same results of command `i`: its result registers and the status fields; W is a result of
DECW only where it succeeds. -/
def sameResults (i : Instr) (t t' : State) : Prop :=
  t.err = t'.err ∧ t.errtok = t'.errtok ∧ t.errslot = t'.errslot ∧ t.busy = t'.busy ∧ t.done = t'.done
    ∧ match i with
      | .encw => t.t = t'.t ∧ t.tlen = t'.tlen
      | .decw => t.err = 0b00#2 → t.w = t'.w
      | .encb => t.outlen = t'.outlen ∧ ∀ a, t.outByte a = t'.outByte a
      | .decb => t.outlen = t'.outlen ∧ ∀ a, t.outByte a = t'.outByte a

/-- The operand registers and buffers the host writes (44 R199 H10 with R191) are the same in both states. -/
def sameHostWritten (s t : State) : Prop :=
  t.w = s.w ∧ t.t = s.t ∧ t.tlen = s.tlen ∧ t.op = s.op ∧ t.seplen = s.seplen ∧ t.sep = s.sep
    ∧ t.inlen = s.inlen ∧ t.inBuf = s.inBuf

/-- The result registers, the status fields and OUT are the same in both states. -/
def sameResultState (s t : State) : Prop :=
  t.outlen = s.outlen ∧ t.outBuf = s.outBuf ∧ t.busy = s.busy ∧ t.done = s.done ∧ t.err = s.err
    ∧ t.errtok = s.errtok ∧ t.errslot = s.errslot

/-- INVARIANT: BUSY and DONE are never both 1 (10 R29). -/
def State.HandshakeInv (s : State) : Prop := ¬ (s.busy = true ∧ s.done = true)

/-- INVARIANT: ERRTOK and ERRSLOT are 0 where they carry no meaning, and ERRSLOT is a slot number (10 R31, R32), as long
as DECB has not run with the empty separator. -/
def State.FailureInv (s : State) : Prop :=
  s.offSpec = false →
    s.errslot.toNat ≤ 4 ∧ (s.err ≠ 0b11#2 → s.errslot = 0#3)
      ∧ (s.err ≠ 0b10#2 → s.err ≠ 0b11#2 → s.errtok = 0)

/-- INVARIANT: OUT holds values at the indices below OUTLEN and at no other (10 R34); below OUTLEN as long as DECB has
not run with the empty separator. -/
def State.OutInv (s : State) : Prop :=
  (∀ a, s.outlen ≤ a → s.outByte a = none) ∧ (s.offSpec = false → ∀ a, a < s.outlen → s.outByte a ≠ none)

/-- INVARIANT: the capacities are legal, every length register holds a length its buffer can hold, and every byte listed
stands at an index its space has (10 R25 to R27, R31; 00 R8; 20 R60). -/
def State.CapacityInv (s : State) : Prop :=
  s.cap.legal = true
    ∧ Capacity.holds s.cap.sepMax s.seplen = true ∧ Capacity.holds s.cap.inMax s.inlen = true
    ∧ Capacity.holds s.cap.outMax s.outlen = true ∧ Capacity.holds s.cap.inMax s.errtok = true
    ∧ (∀ c ∈ s.sep, Capacity.hasIndex s.cap.sepMax c.1 = true)
    ∧ (∀ c ∈ s.inBuf, Capacity.hasIndex s.cap.inMax c.1 = true)
    ∧ (∀ c ∈ s.outBuf, Capacity.hasIndex s.cap.outMax c.1 = true)

end Sys2Proof.Machine
end

