-- ==== Sys2Proof/Certificates/Slice0/Obligations.lean ====
section
/-! DEFINITION. The statements for the provers, from the numbered rules of spec/. A premise `r.legal` or `s.rom.legal`
says that the alphabet ROMs hold contents the spec allows (30 R82 to R84): the statement then holds for every choice of
CONS10 and CONS15. That the ROMs never change is `RomAndCapacitiesNeverChange`. -/

open Sys2Proof Sys2Proof.Machine

/-! ## Reset, START, completion -/

/-- 10 R39: what reset leaves in every register, status field and buffer, and ROMs with the contents of R82 and R83
(CONS10 and CONS15 under their constraints). -/
def Obligations.ResetLeavesTheListedValues : Prop :=
  State.reset.AtReset ∧ State.reset.rom.legal = true

/-- 70 R240, R242: the reset event leaves the listed values whether or not a command was running, changes neither ROM
nor capacity, and besides a completion it is the only move that ends a command. -/
def Obligations.ResetEndsACommandWithoutCompletion : Prop :=
  (∀ (s : State) (rest : List Turn), s.turns = .reset :: rest →
    ∃ t, step s = .next t ∧ t.AtReset ∧ t.rom = s.rom ∧ t.cap = s.cap ∧ t.turns = rest) ∧
  (∀ s t : State, step s = .next t → s.busy = true → t.busy = false → s.resetNext ∨ (s.blockNext ∧ t.done = true))

/-- 44 R192: an accepted START sets BUSY, clears DONE and changes nothing else; from then until completion no host
operation changes OP or an operand. -/
def Obligations.AcceptedStartOnlySetsBusyAndClearsDone : Prop :=
  (∀ (s : State) (rest : List Turn), s.turns = .host .start :: rest → s.busy = false →
    step s = .next { s with turns := rest, busy := true, done := false }) ∧
  (∀ (s t : State) (x : HostOp), s.hostNext x → s.busy = true → step s = .next t → sameHostWritten s t)

/-- 44 R196: a START while BUSY is ignored, and no host operation ends, restarts or queues a command. -/
def Obligations.StartWhileBusyIsIgnored : Prop :=
  (∀ (s : State) (rest : List Turn), s.turns = .host .start :: rest → s.busy = true →
    step s = .next { s with turns := rest }) ∧
  (∀ (s t : State) (x : HostOp), s.hostNext x → s.busy = true → step s = .next t →
    sameHostWritten s t ∧ sameResultState s t)

/-- 44 R193: the block's turn while BUSY is the completion of the operation OP selects, and it ends with BUSY 0 and
DONE 1, failed or not. -/
def Obligations.CompletionClearsBusyAndSetsDone : Prop :=
  ∀ (i : Instr) (s t : State), exec i s = .next t → t.busy = false ∧ t.done = true ∧ t.op = s.op ∧ t.turns = s.turns

/-- A step runs the decoded instruction: with the block's turn next and BUSY set, the step is exec of the instruction
the decoder gives for the code in OP, with the block's turn taken off the list of moves. -/
def Obligations.StepRunsTheDecodedInstruction : Prop :=
  ∀ (s : State) (i : Instr) (bytes : List Byte), s.busy = true →
    decode (s.op.zeroExtend 8 :: bytes) = .ok (i, bytes) →
    (s.turns = [] → step s = exec i s) ∧
    (∀ rest, s.turns = .block :: rest → step s = exec i { s with turns := rest })

/-- 44 R197: an idle block's turn changes nothing: after completion nothing runs by itself. -/
def Obligations.IdleBlockDoesNothing : Prop :=
  ∀ (s : State), s.busy = false → s.blockNext → step s = .next { s with turns := s.turns.tail }

/-- 44 R198: every started command whose input bytes have been written completes. -/
def Obligations.EveryCommandCompletes : Prop :=
  ∀ s : State, s.busy = true → s.blockNext → s.inputWritten →
    ∃ t, step s = .next t ∧ t.busy = false ∧ t.done = true

/-- 20 R57, R61: while a command runs, any sequence of host operations on existing locations leaves every operand and
every result as it was; then the block's turn completes the command on the operands of the accepted START. -/
def Obligations.HostCannotDisturbARunningCommand : Prop :=
  ∀ (s : State) (ops : List HostOp), s.busy = true → s.turns = ops.map Turn.host →
    (∀ x, HostOp.write x ∈ ops → x.located s.cap = true) → (∀ x, HostOp.read x ∈ ops → x.located s.cap = true) →
    ∃ answers draws, core.run ops.length s = .next { s with turns := [], answers := answers, draws := draws } ∧
      step { s with turns := [], answers := answers, draws := draws }
        = exec s.selected { s with turns := [], answers := answers, draws := draws }

/-! ## The host's reads and writes -/

/-- 44 R194: a write while BUSY is dropped, without any sign of it. -/
def Obligations.WritesWhileBusyAreDropped : Prop :=
  ∀ (s : State) (x : HostWrite) (rest : List Turn), s.turns = .host (.write x) :: rest → s.busy = true →
    x.located s.cap = true → step s = .next { s with turns := rest }

/-- 44 R191, first row: while BUSY is 0 a host write of W, T, TLEN, OP, or of SEPLEN or INLEN within its capacity,
changes that register to the value and nothing else. -/
def Obligations.IdleRegisterWritesTakeEffect : Prop :=
  ∀ (s : State) (rest : List Turn), s.busy = false →
    (∀ v, s.turns = .host (.write (.w v)) :: rest → step s = .next { s with turns := rest, w := v }) ∧
    (∀ v, s.turns = .host (.write (.t v)) :: rest → step s = .next { s with turns := rest, t := v }) ∧
    (∀ v, s.turns = .host (.write (.tlen v)) :: rest → step s = .next { s with turns := rest, tlen := v }) ∧
    (∀ v, s.turns = .host (.write (.op v)) :: rest → step s = .next { s with turns := rest, op := v }) ∧
    (∀ n, Capacity.holds s.cap.sepMax n = true → s.turns = .host (.write (.seplen n)) :: rest →
      step s = .next { s with turns := rest, seplen := n }) ∧
    (∀ n, Capacity.holds s.cap.inMax n = true → s.turns = .host (.write (.inlen n)) :: rest →
      step s = .next { s with turns := rest, inlen := n })

/-- 44 R191: while BUSY is 0 a host write of IN[a] or SEP[j] gives that byte the value, leaves every other byte as it
was, and changes nothing else. -/
def Obligations.IdleByteWritesReachOneByte : Prop :=
  (∀ (s : State) (rest : List Turn) (a : Nat) (b : Byte), s.busy = false → Capacity.hasIndex s.cap.inMax a = true →
    s.turns = .host (.write (.inByte a b)) :: rest →
    ∃ t, step s = .next t ∧ t = { s with turns := rest, inBuf := t.inBuf } ∧
      ∀ k, t.inByte k = if k = a then some b else s.inByte k) ∧
  (∀ (s : State) (rest : List Turn) (j : Nat) (b : Byte), s.busy = false → Capacity.hasIndex s.cap.sepMax j = true →
    s.turns = .host (.write (.sep j b)) :: rest →
    ∃ t, step s = .next t ∧ t = { s with turns := rest, sep := t.sep } ∧
      ∀ k, t.sepByte k = if k = j then b else s.sepByte k)

/-- 44 R191: host writes to OUTLEN, BUSY, DONE, ERR, ERRTOK, ERRSLOT and OUT are ignored. -/
def Obligations.ReadOnlyFieldsIgnoreHostWrites : Prop :=
  ∀ (s : State) (rest : List Turn) (x : HostWrite), s.turns = .host (.write x) :: rest →
    ((∃ n, x = .outlen n) ∨ (∃ v, x = .busy v) ∨ (∃ v, x = .done v) ∨ (∃ v, x = .err v) ∨
      (∃ n, x = .errtok n) ∨ (∃ v, x = .errslot v) ∨ ∃ a b, x = .outByte a b) →
    step s = .next { s with turns := rest }

/-- 44 R191, 10 R38: while BUSY is 0 a host read returns the register; of IN and OUT[0..OUTLEN-1], the byte. The read
changes nothing but the host's own record. -/
def Obligations.IdleReadsReturnTheRegister : Prop :=
  ∀ (s : State) (rest : List Turn) (x : HostRead) (v : Nat), s.busy = false → s.turns = .host (.read x) :: rest →
    ((x = .w ∧ v = s.w.toNat) ∨ (x = .t ∧ v = s.t.toNat) ∨ (x = .tlen ∧ v = s.tlen.toNat) ∨
      (x = .op ∧ v = s.op.toNat) ∨ (x = .seplen ∧ v = s.seplen) ∨ (x = .inlen ∧ v = s.inlen) ∨
      (x = .outlen ∧ v = s.outlen) ∨ (x = .err ∧ v = s.err.toNat) ∨ (x = .errtok ∧ v = s.errtok) ∨
      (x = .errslot ∧ v = s.errslot.toNat) ∨
      (∃ j, Capacity.hasIndex s.cap.sepMax j = true ∧ x = .sep j ∧ v = (s.sepByte j).toNat) ∨
      (∃ a b, Capacity.hasIndex s.cap.inMax a = true ∧ x = .inByte a ∧ s.inByte a = some b ∧ v = b.toNat) ∨
      (∃ a b, Capacity.hasIndex s.cap.outMax a = true ∧ a < s.outlen ∧ x = .outByte a ∧ s.outByte a = some b ∧
        v = b.toNat)) →
    step s = .next { s with turns := rest, answers := ⟨x, v⟩ :: s.answers }

/-- 44 R191: BUSY and DONE are returned at any time. -/
def Obligations.BusyAndDoneAreReadableAtAnyTime : Prop :=
  ∀ (s : State) (rest : List Turn),
    (s.turns = .host (.read .busy) :: rest →
      step s = .next { s with turns := rest, answers := ⟨.busy, if s.busy then 1 else 0⟩ :: s.answers }) ∧
    (s.turns = .host (.read .done) :: rest →
      step s = .next { s with turns := rest, answers := ⟨.done, if s.done then 1 else 0⟩ :: s.answers })

/-- 44 R195: while BUSY every other read returns an unspecified value: a free draw, neither the old value nor the new;
the block is unchanged. The same for a read of OUT at OUTLEN and above at any time (10 R34), and of a byte of IN that
nothing has written since reset (10 R33, 93 U5; log 9). -/
def Obligations.UnspecifiedReadsAreFreeDraws : Prop :=
  ∀ (s : State) (rest : List Turn) (x : HostRead), x.located s.cap = true → s.turns = .host (.read x) :: rest →
    ((s.busy = true ∧ x ≠ .busy ∧ x ≠ .done) ∨ (∃ a, x = .outByte a ∧ s.outlen ≤ a) ∨
      ∃ a, x = .inByte a ∧ s.inByte a = none) →
    step s = .next { s with turns := rest, draws := s.draws + 1, answers := ⟨x, x.narrow s.cap (Config.freeValue s.draws)⟩ :: s.answers }

/-- 20 R58: no read has a side effect on the block, and every operation repeated on unchanged operands gives the same
results, indeed the same state; DECB with the empty separator, whose results are unspecified, apart. -/
def Obligations.ReadsAreHarmlessAndCommandsIdempotent : Prop :=
  (∀ (s t : State) (x : HostRead), s.hostNext (.read x) → step s = .next t →
    sameHostWritten s t ∧ sameResultState s t ∧ t.rom = s.rom) ∧
  (∀ (i : Instr) (s t : State), ¬ emptySeparator i s → exec i s = .next t → exec i t = .next t)

/-- 93 U10, 44 R200 H5, H6 (log 11): a length above its capacity, written while BUSY is 0, is refused; the write and
the read of SEP[j] or IN[a] and the read of OUT[a], at an index the instance does not have, fault whatever BUSY is. -/
def Obligations.BreachesOfTheCapacitiesStop : Prop :=
  ∀ (s : State) (rest : List Turn),
    (∀ n, s.busy = false → Capacity.holds s.cap.sepMax n = false → s.turns = .host (.write (.seplen n)) :: rest →
      step s = .refused .lengthAboveCapacity) ∧
    (∀ n, s.busy = false → Capacity.holds s.cap.inMax n = false → s.turns = .host (.write (.inlen n)) :: rest →
      step s = .refused .lengthAboveCapacity) ∧
    (∀ a b, Capacity.hasIndex s.cap.inMax a = false → s.turns = .host (.write (.inByte a b)) :: rest →
      step s = .fault .noSuchIndex) ∧
    (∀ a, Capacity.hasIndex s.cap.inMax a = false → s.turns = .host (.read (.inByte a)) :: rest →
      step s = .fault .noSuchIndex) ∧
    (∀ j b, Capacity.hasIndex s.cap.sepMax j = false → s.turns = .host (.write (.sep j b)) :: rest →
      step s = .fault .noSuchIndex) ∧
    (∀ j, Capacity.hasIndex s.cap.sepMax j = false → s.turns = .host (.read (.sep j)) :: rest →
      step s = .fault .noSuchIndex) ∧
    (∀ a, Capacity.hasIndex s.cap.outMax a = false → s.turns = .host (.read (.outByte a)) :: rest →
      step s = .fault .noSuchIndex)

/-! ## ENCW and DECW -/

/-- 40 R114: ENCW writes the five symbols of W's fields to the lanes of T, 5 to TLEN, success to the status fields, and
nothing else; it never fails. -/
def Obligations.EncwWritesTheToken : Prop :=
  ∀ s : State, ∃ tok : Token,
    exec .encw s = .next { s with t := tok, tlen := 5#3, err := 0b00#2, errtok := 0, errslot := 0#3, busy := false, done := true } ∧
    tok.extractLsb' 32 8 = s.rom.cons (s.w.extractLsb' 12 4) ∧
    tok.extractLsb' 24 8 = s.rom.vowel (s.w.extractLsb' 10 2) ∧
    tok.extractLsb' 16 8 = s.rom.cons (s.w.extractLsb' 6 4) ∧
    tok.extractLsb' 8 8 = s.rom.vowel (s.w.extractLsb' 4 2) ∧
    tok.extractLsb' 0 8 = s.rom.cons (s.w.extractLsb' 0 4)

/-- 41 R136: DECW. TLEN not 5 is InvalidLength; with TLEN 5 the lowest lane outside its slot's alphabet is
InvalidSymbol at that slot; with every lane a symbol of its slot, W is the merged indices. W keeps its value on a
failure, and nothing else changes. -/
def Obligations.DecwFollowsItsPseudocode : Prop :=
  (∀ s : State, s.tlen ≠ 5#3 →
    exec .decw s = .next { s with err := 0b10#2, errtok := 0, errslot := 0#3, busy := false, done := true }) ∧
  (∀ (s : State) (k : Nat), s.tlen = 5#3 → k < 5 →
    (∀ j c, j < k → (tokenLanes s.t)[j]? = some c → s.rom.memberAt j c) →
    (∀ c, (tokenLanes s.t)[k]? = some c → ¬ s.rom.memberAt k c) →
    exec .decw s = .next { s with err := 0b11#2, errtok := 0, errslot := BitVec.ofNat 3 k, busy := false, done := true }) ∧
  (∀ (s : State) (i0 : BitVec 4) (i1 : BitVec 2) (i2 : BitVec 4) (i3 : BitVec 2) (i4 : BitVec 4),
    s.rom.legal = true → s.tlen = 5#3 → s.t = tokenOfIndices s.rom i0 i1 i2 i3 i4 →
    exec .decw s = .next { s with w := i0 ++ i1 ++ i2 ++ i3 ++ i4, err := 0b00#2, errtok := 0, errslot := 0#3, busy := false, done := true })

/-- 41 R132, R133, R134: the ports of proquint_decode_word. A length other than 5 is InvalidLength whatever the lanes
hold; else the lowest lane outside its slot's alphabet is InvalidSymbol; else the word is the merged indices and err_o is
0b00, with nothing said of err_slot_o (log 20). -/
def Obligations.DecodeModuleChecksLengthThenSymbols : Prop :=
  (∀ (r : Rom) (tok : Token) (len : BitVec 3), len ≠ 5#3 →
    (decodeWordModule r tok len).err_o = 0b10#2 ∧ (decodeWordModule r tok len).err_slot_o = 0#3) ∧
  (∀ (r : Rom) (tok : Token) (k : Nat), k < 5 →
    (∀ j c, j < k → (tokenLanes tok)[j]? = some c → r.memberAt j c) →
    (∀ c, (tokenLanes tok)[k]? = some c → ¬ r.memberAt k c) →
    (decodeWordModule r tok 5#3).err_o = 0b11#2 ∧ (decodeWordModule r tok 5#3).err_slot_o = BitVec.ofNat 3 k) ∧
  (∀ (r : Rom) (i0 : BitVec 4) (i1 : BitVec 2) (i2 : BitVec 4) (i3 : BitVec 2) (i4 : BitVec 4), r.legal = true →
    (decodeWordModule r (tokenOfIndices r i0 i1 i2 i3 i4) 5#3).word_o = i0 ++ i1 ++ i2 ++ i3 ++ i4 ∧
      (decodeWordModule r (tokenOfIndices r i0 i1 i2 i3 i4) 5#3).err_o = 0b00#2)

/-- 41 R135: presented with a candidate's first five bytes and min(n, 6), whatever the lanes beyond hold, the module
computes the function decode_word: its word with err_o 0b00, or its failure and slot. -/
def Obligations.DecodeModuleComputesDecodeWord : Prop :=
  ∀ (r : Rom) (filler : Byte) (cand : List Byte),
    match decodeWord r cand with
    | .ok w =>
      (decodeWordModule r (presentToken filler cand).1 (presentToken filler cand).2).word_o = w ∧
        (decodeWordModule r (presentToken filler cand).1 (presentToken filler cand).2).err_o = 0b00#2
    | .fail e _ slot =>
      (decodeWordModule r (presentToken filler cand).1 (presentToken filler cand).2).err_o = e.code ∧
        (decodeWordModule r (presentToken filler cand).1 (presentToken filler cand).2).err_slot_o = slot

/-- 41 R137: every word comes back: as a function, and in commands: DECW, in any state that holds the T, TLEN and
ROM that ENCW left, whatever W and the rest have become, ends with ERR 0b00 and the W that ENCW started from. -/
def Obligations.WordRoundTrip : Prop :=
  (∀ (r : Rom) (w : Word), r.legal = true → decodeWord r (encodeWord r w) = .ok w) ∧
  (∀ s t u : State, s.rom.legal = true → exec .encw s = .next t → u.t = t.t → u.tlen = t.tlen → u.rom = t.rom →
    ∃ v, exec .decw u = .next v ∧ v.err = 0b00#2 ∧ v.w = s.w)

/-- 41 R138: every token that decodes is the token of the word it decodes to. -/
def Obligations.TokenRoundTrip : Prop :=
  ∀ (r : Rom) (t : List Byte) (w : Word), decodeWord r t = .ok w → encodeWord r w = t

/-- 30 R95: encode_word is a bijection from the words onto the five-character sequences whose characters are each in
their slot's alphabet. -/
def Obligations.EveryValidTokenIsTheTokenOfOneWord : Prop :=
  ∀ r : Rom, r.legal = true →
    (∀ w w' : Word, encodeWord r w = encodeWord r w' → w = w') ∧
    (∀ t : List Byte, (∃ w, encodeWord r w = t) ↔ t.length = 5 ∧ ∀ k c, t[k]? = some c → r.memberAt k c)

/-- 41 R139: decode_word always gives one of its three results, DECW always completes, and a failed DECW leaves W as
it was. -/
def Obligations.DecwCompletesOnEveryToken : Prop :=
  (∀ (r : Rom) (t : List Byte), (∃ w, decodeWord r t = .ok w) ∨ decodeWord r t = .fail .invalidLength 0 0#3 ∨
    ∃ slot, slot.toNat ≤ 4 ∧ decodeWord r t = .fail .invalidSymbol 0 slot) ∧
  (∀ s : State, ∃ t, exec .decw s = .next t ∧ (t.err ≠ 0b00#2 → t.w = s.w))

/-- 30 R86: the splitter's five fields in the shift-and-mask form. -/
def Obligations.SplitterIsShiftAndMask : Prop :=
  ∀ w : Word,
    (splitWord w).c0.toNat = (w >>> 12 &&& 0xF#16).toNat ∧ (splitWord w).v0.toNat = (w >>> 10 &&& 0x3#16).toNat ∧
    (splitWord w).c1.toNat = (w >>> 6 &&& 0xF#16).toNat ∧ (splitWord w).v1.toNat = (w >>> 4 &&& 0x3#16).toNat ∧
    (splitWord w).c2.toNat = (w &&& 0xF#16).toNat

/-- 30 R87: the merger equals the serial accumulation by shift and OR in 16 bits, most significant slot first, and the
accumulators stay within 4, 6, 10 and 12 bits. -/
def Obligations.MergerIsSerialAccumulation : Prop :=
  ∀ f : Fields,
    let acc1 : Word := (0#16 <<< 4) ||| f.c0.zeroExtend 16
    let acc2 : Word := (acc1 <<< 2) ||| f.v0.zeroExtend 16
    let acc3 : Word := (acc2 <<< 4) ||| f.c1.zeroExtend 16
    let acc4 : Word := (acc3 <<< 2) ||| f.v1.zeroExtend 16
    mergeFields f = (acc4 <<< 4) ||| f.c2.zeroExtend 16 ∧
      acc1.toNat < 2 ^ 4 ∧ acc2.toNat < 2 ^ 6 ∧ acc3.toNat < 2 ^ 10 ∧ acc4.toNat < 2 ^ 12

/-- 30 R84, R85: with legal contents CINV and VINV invert the ROMs, give (0, 0) off them, and no byte has both valid
bits set. -/
def Obligations.InverseLookupsInvertTheRoms : Prop :=
  ∀ r : Rom, r.legal = true →
    (∀ c i, r.cinv c = (true, i) ↔ r.cons i = c) ∧ (∀ c, (∀ i, r.cons i ≠ c) → r.cinv c = (false, 0#4)) ∧
    (∀ c i, r.vinv c = (true, i) ↔ r.vowel i = c) ∧ (∀ c, (∀ i, r.vowel i ≠ c) → r.vinv c = (false, 0#2)) ∧
    (∀ c, (r.cinv c).1 = false ∨ (r.vinv c).1 = false)

/-! ## ENCB -/

/-- 42 R153: ENCB. An odd INLEN fails with InvalidInputLength and OUTLEN 0. With INLEN even and its bytes written, OUT
holds token i at i(5+L), a copy of SEP after each token but the last, OUTLEN is 5N + (N-1)L (0 for N = 0), and OUT has
no value at OUTLEN and above. Nothing else changes. -/
def Obligations.EncbFollowsItsPseudocode : Prop :=
  (∀ s : State, s.inlen % 2 = 1 →
    exec .encb s = .next { s with outBuf := [], outlen := 0, err := 0b01#2, errtok := 0, errslot := 0#3, busy := false, done := true }) ∧
  (∀ (s : State) (data : List Byte), s.inlen % 2 = 0 → s.inputIs data →
    ∃ t, exec .encb s = .next t ∧
      t = { s with outBuf := t.outBuf, outlen := t.outlen, err := 0b00#2, errtok := 0, errslot := 0#3, busy := false, done := true } ∧
      t.outlen = (if s.inlen / 2 = 0 then 0 else 5 * (s.inlen / 2) + (s.inlen / 2 - 1) * s.seplen) ∧
      (∀ i hi lo k, i < s.inlen / 2 → data[2 * i]? = some hi → data[2 * i + 1]? = some lo → k < 5 →
        t.outByte (i * (5 + s.seplen) + k) = (encodeWord s.rom (hi ++ lo))[k]?) ∧
      (∀ i j, i + 1 < s.inlen / 2 → j < s.seplen →
        t.outByte (i * (5 + s.seplen) + 5 + j) = some (s.sepByte j)) ∧
      (∀ a, t.outlen ≤ a → t.outByte a = none))

/-- 60 R212: InvalidInputLength is the result of ENCB exactly where INLEN is odd, and of no other command; the DECB
with the empty separator, whose ERR is unspecified, apart. -/
def Obligations.InvalidInputLengthExactlyForOddEncb : Prop :=
  (∀ s t : State, exec .encb s = .next t → (t.err = 0b01#2 ↔ s.inlen % 2 = 1)) ∧
  (∀ (i : Instr) (s t : State), i ≠ .encb → ¬ emptySeparator i s → exec i s = .next t → t.err ≠ 0b01#2)

/-- 42 R154: 2N bytes make exactly N words and so N tokens, of length 5N + (N-1) len(sep) together for N at least 1; as
a command, OUTLEN is that length on success. -/
def Obligations.EncodedLength : Prop :=
  (∀ (r : Rom) (data sep out : List Byte) (n : Nat), data.length = 2 * n → 0 < n → encodeBuffer r data sep = .ok out →
    (wordsOf data).length = n ∧ out.length = 5 * n + (n - 1) * sep.length) ∧
  (∀ (s t : State) (n : Nat), s.inlen = 2 * n → 0 < n → exec .encb s = .next t →
    t.err = 0b00#2 ∧ t.outlen = 5 * n + (n - 1) * s.seplen)

/-- 42 R155: ENCB on INLEN = 0 succeeds with the empty text, whatever the separator. -/
def Obligations.EncbOfNothingIsTheEmptyText : Prop :=
  ∀ s : State, s.inlen = 0 →
    exec .encb s = .next { s with outBuf := [], outlen := 0, err := 0b00#2, errtok := 0, errslot := 0#3, busy := false, done := true }

/-- 93 U5, 44 R200 H5 (log 9): ENCB with an even INLEN, and DECB with a separator, fault where they would read a byte
of IN that nothing has written. -/
def Obligations.UnwrittenInputIsAFault : Prop :=
  ∀ (s : State) (a : Nat), a < s.inlen → s.inByte a = none →
    (s.inlen % 2 = 0 → exec .encb s = .fault .unwrittenInput) ∧
    (1 ≤ s.seplen → exec .decb s = .fault .unwrittenInput)

/-! ## DECB -/

/-- 30 R91: split. At least one candidate; the empty text is one empty candidate; a separator at the front closes the
candidate being gathered; any other byte joins it; and the candidates joined with the separator are the text. -/
def Obligations.SplitFollowsItsPseudocode : Prop :=
  ∀ sep : List Byte, sep ≠ [] →
    splitText sep [] = [[]] ∧
    (∀ rest, splitText sep (sep ++ rest) = [] :: splitText sep rest) ∧
    (∀ c rest cand cands, ¬ sep <+: c :: rest → splitText sep rest = cand :: cands →
      splitText sep (c :: rest) = (c :: cand) :: cands) ∧
    (∀ text, splitText sep text ≠ [] ∧ joinTokens sep (splitText sep text) = text)

/-- 43 R173, R172: DECB where every candidate decodes: OUT holds word j at 2j and 2j+1, high byte first, OUTLEN is two
bytes a candidate, OUT has no value beyond, and nothing else changes. -/
def Obligations.DecbLaysDownTheWords : Prop :=
  ∀ (s : State) (text : List Byte) (words : List Word), 1 ≤ s.seplen → s.inputIs text →
    (splitText s.sepBytes text).map (decodeWord s.rom) = words.map Result.ok →
    ∃ t, exec .decb s = .next t ∧
      t = { s with outBuf := t.outBuf, outlen := t.outlen, err := 0b00#2, errtok := 0, errslot := 0#3, busy := false, done := true } ∧
      t.outlen = 2 * words.length ∧
      (∀ j w, words[j]? = some w →
        t.outByte (2 * j) = some (w.extractLsb' 8 8) ∧ t.outByte (2 * j + 1) = some (w.extractLsb' 0 8)) ∧
      (∀ a, t.outlen ≤ a → t.outByte a = none)

/-- 43 R174: the first candidate that fails decides: its failure and slot unchanged, its index in ERRTOK, OUTLEN 0 and
OUT without values, later candidates unexamined. -/
def Obligations.DecbReportsTheFirstFailure : Prop :=
  ∀ (s : State) (text cand : List Byte) (j tok : Nat) (e : Failure) (slot : BitVec 3), 1 ≤ s.seplen → s.inputIs text →
    (splitText s.sepBytes text)[j]? = some cand → decodeWord s.rom cand = .fail e tok slot →
    (∀ i c, i < j → (splitText s.sepBytes text)[i]? = some c → ∃ w, decodeWord s.rom c = .ok w) →
    exec .decb s = .next { s with outBuf := [], outlen := 0, err := e.code, errtok := j, errslot := slot, busy := false, done := true }

/-- 43 R175: DECB on INLEN = 0 is InvalidLength at candidate 0. -/
def Obligations.DecbOfTheEmptyTextFails : Prop :=
  ∀ s : State, 1 ≤ s.seplen → s.inlen = 0 →
    exec .decb s = .next { s with outBuf := [], outlen := 0, err := 0b10#2, errtok := 0, errslot := 0#3, busy := false, done := true }

/-- 43 R176: a successful decoding has two bytes for each of K candidates, K at least 1, and came from a text of
5K + (K-1) len(sep) bytes. -/
def Obligations.DecodedLength : Prop :=
  ∀ (r : Rom) (text sep out : List Byte), sep ≠ [] → decodeBuffer r text sep = .ok out →
    1 ≤ (splitText sep text).length ∧ out.length = 2 * (splitText sep text).length ∧
    text.length = 5 * (splitText sep text).length + ((splitText sep text).length - 1) * sep.length ∧
    (splitText sep text).length ≤ (text.length + 1) / 6

/-- 43 R178, as far as R91 bears it out (log 18): a leading separator fails at candidate 0; with a one-byte separator a
trailing one leaves an empty last candidate and a doubled one an empty candidate, and the text fails. -/
def Obligations.StraySeparatorsFail : Prop :=
  (∀ (r : Rom) (sep rest : List Byte), sep ≠ [] →
    decodeBuffer r (sep ++ rest) sep = .fail .invalidLength 0 0#3) ∧
  (∀ (r : Rom) (b : Byte) (text : List Byte), ∃ cands, splitText [b] (text ++ [b]) = cands ++ [[]] ∧
    ∃ e tok slot, decodeBuffer r (text ++ [b]) [b] = .fail e tok slot) ∧
  (∀ (r : Rom) (b : Byte) (text rest : List Byte), [] ∈ splitText [b] (text ++ [b, b] ++ rest) ∧
    ∃ e tok slot, decodeBuffer r (text ++ [b, b] ++ rest) [b] = .fail e tok slot)

/-- 43 R179 (log 8): DECB with SEPLEN = 0 completes, with BUSY 0 and DONE 1; it changes no operand; OUT holds no value,
and OUTLEN and ERRTOK stay in their ranges; the run is marked. -/
def Obligations.DecbWithEmptySeparatorCompletes : Prop :=
  ∀ s : State, s.seplen = 0 → ∃ t, exec .decb s = .next t ∧ t.busy = false ∧ t.done = true ∧ sameHostWritten s t ∧
    (∀ a, t.outByte a = none) ∧ Capacity.holds s.cap.outMax t.outlen = true ∧
    Capacity.holds s.cap.inMax t.errtok = true ∧ t.offSpec = true

/-- 43 R177, on values: what ENCB makes of data of even length at least 2, with a separator of length at least 1 that
has no alphabet symbol, DECB takes back to the data. -/
def Obligations.BufferRoundTrip : Prop :=
  ∀ (r : Rom) (data sep : List Byte), r.legal = true → data.length % 2 = 0 → 2 ≤ data.length → sep ≠ [] →
    separatorForeign r sep →
    ∃ text, encodeBuffer r data sep = .ok text ∧ decodeBuffer r text sep = .ok data

/-- 43 R177, in commands: ENCB, then OUT[0..OUTLEN-1] copied to IN and OUTLEN to INLEN, then DECB, ends with
OUT[0..OUTLEN-1] equal to the original IN bytes. -/
def Obligations.BufferRoundTripInCommands : Prop :=
  ∀ (s t : State) (data : List Byte), s.rom.legal = true → s.inputIs data → s.inlen % 2 = 0 → 2 ≤ s.inlen →
    1 ≤ s.seplen → separatorForeign s.rom s.sepBytes → exec .encb s = .next t →
    ∃ u, exec .decb { t with inBuf := t.outBuf, inlen := t.outlen } = .next u ∧ u.err = 0b00#2 ∧
      u.outlen = s.inlen ∧ ∀ a, a < s.inlen → u.outByte a = s.inByte a

/-! ## All commands -/

/-- 44 R199: what each command never changes, read as registers and byte by byte; no command changes ROM or capacity. -/
def Obligations.CommandsLeaveTheRestAlone : Prop :=
  ∀ (i : Instr) (s t : State), exec i s = .next t →
    t.op = s.op ∧ t.sep = s.sep ∧ t.seplen = s.seplen ∧ t.inlen = s.inlen ∧ t.inBuf = s.inBuf ∧
    t.rom = s.rom ∧ t.cap = s.cap ∧ (∀ a, t.inByte a = s.inByte a) ∧ (∀ j, t.sepByte j = s.sepByte j) ∧
    (i ≠ .decw → t.w = s.w) ∧ (i = .decw → t.err ≠ 0b00#2 → t.w = s.w) ∧
    (i ≠ .encw → t.t = s.t ∧ t.tlen = s.tlen) ∧
    (isWordCommand i → t.outlen = s.outlen ∧ t.outBuf = s.outBuf ∧ ∀ a, t.outByte a = s.outByte a)

/-- 60 R217: a failed command completes like any other and leaves, in place of a result, W unchanged (DECW) or OUTLEN 0
and OUT without a value (ENCB, DECB); nothing else changes but the status fields. -/
def Obligations.FailedCommandsLeaveNoResult : Prop :=
  ∀ (i : Instr) (s t : State), ¬ emptySeparator i s → exec i s = .next t → t.err ≠ 0b00#2 →
    t.busy = false ∧ t.done = true ∧
    (isWordCommand i → t = { s with err := t.err, errtok := t.errtok, errslot := t.errslot, busy := false, done := true }) ∧
    (¬ isWordCommand i → t = { s with outBuf := [], outlen := 0, err := t.err, errtok := t.errtok, errslot := t.errslot, busy := false, done := true } ∧ ∀ a, t.outByte a = none)

/-- 60 R211: which command raises each code, and what ERRTOK and ERRSLOT record with it: for DECB the index of the
failing candidate, all earlier ones decoding, and for InvalidSymbol the lowest slot whose byte is not in its alphabet;
0 otherwise. The DECB with the empty separator apart. -/
def Obligations.StatusRecordsOfEachCode : Prop :=
  ∀ (i : Instr) (s t : State), ¬ emptySeparator i s → exec i s = .next t →
    (t.err = 0b00#2 → t.errtok = 0 ∧ t.errslot = 0#3) ∧
    (t.err = 0b01#2 → i = .encb ∧ t.errtok = 0 ∧ t.errslot = 0#3) ∧
    (t.err = 0b10#2 → t.errslot = 0#3 ∧
      (i = .decw ∧ s.tlen ≠ 5#3 ∧ t.errtok = 0 ∨
        i = .decb ∧ ∃ text cand, s.inputIs text ∧ cand.length ≠ 5 ∧
          reachesCandidate s.rom (splitText s.sepBytes text) t.errtok cand)) ∧
    (t.err = 0b11#2 →
      (i = .decw ∧ s.tlen = 5#3 ∧ t.errtok = 0 ∧ lowestBadSlot s.rom (tokenLanes s.t) t.errslot.toNat) ∨
        i = .decb ∧ ∃ text cand, s.inputIs text ∧ reachesCandidate s.rom (splitText s.sepBytes text) t.errtok cand ∧
          lowestBadSlot s.rom cand t.errslot.toNat)

/-- 00 R12: the result of a command depends on its own operands and on nothing else in the state; the DECB with the
empty separator apart. -/
def Obligations.ResultsDependOnOperandsAlone : Prop :=
  ∀ (i : Instr) (s s' t : State), ¬ emptySeparator i s → sameOperands i s s' → exec i s = .next t →
    ∃ t', exec i s' = .next t' ∧ sameResults i t t'

/-! ## Rules of the whole machine -/

/-- 20 R64, 10 R35, R36: no step writes a ROM; nor a capacity. -/
def Obligations.RomAndCapacitiesNeverChange : Prop :=
  ∀ s t : State, step s = .next t → t.rom = s.rom ∧ t.cap = s.cap

/-- 10 R20, "Written by": which moves change W, T, TLEN, OP, SEPLEN, SEP, INLEN, IN, OUTLEN, OUT. -/
def Obligations.OnlyTheNamedAgentsWriteEachRegister : Prop :=
  ∀ s t : State, step s = .next t → ¬ s.resetNext →
    (t.w ≠ s.w → (∃ v, s.hostNext (.write (.w v))) ∨ (s.blockNext ∧ s.op = 0b01#2 ∧ t.err = 0b00#2)) ∧
    (t.t ≠ s.t → (∃ v, s.hostNext (.write (.t v))) ∨ (s.blockNext ∧ s.op = 0b00#2)) ∧
    (t.tlen ≠ s.tlen → (∃ v, s.hostNext (.write (.tlen v))) ∨ (s.blockNext ∧ s.op = 0b00#2)) ∧
    (t.op ≠ s.op → ∃ v, s.hostNext (.write (.op v))) ∧
    (t.seplen ≠ s.seplen → ∃ n, s.hostNext (.write (.seplen n))) ∧
    (t.sep ≠ s.sep → ∃ j b, s.hostNext (.write (.sep j b))) ∧
    (t.inlen ≠ s.inlen → ∃ n, s.hostNext (.write (.inlen n))) ∧
    (t.inBuf ≠ s.inBuf → ∃ a b, s.hostNext (.write (.inByte a b))) ∧
    (t.outlen ≠ s.outlen ∨ t.outBuf ≠ s.outBuf → s.blockNext ∧ (s.op = 0b10#2 ∨ s.op = 0b11#2)) ∧
    (t.err ≠ s.err ∨ t.errtok ≠ s.errtok ∨ t.errslot ≠ s.errslot → s.blockNext ∧ s.busy = true ∧ t.done = true)

/-- 44 R200, H5 and H6 (log 9, 11): a machine whose host names existing locations, writes no length above its capacity
and has written the input it claims never stops: every step gives a next state. -/
def Obligations.OnlyABrokenDutyStopsTheMachine : Prop :=
  ∀ s : State, s.inputWritten →
    (∀ x, s.hostNext (.write x) → x.located s.cap = true ∧ x.lengthHeld s.cap = true) →
    (∀ x, s.hostNext (.read x) → x.located s.cap = true) → safeStep s

/-- INVARIANT. The three byte memories keep their canonical form in every step. -/
def Obligations.StepsKeepMemoryCanonical : Prop :=
  ∀ s t : State, s.memWf → step s = .next t → t.memWf

/-- INVARIANT, 10 R29: BUSY and DONE are never both 1. -/
def Obligations.StepsKeepBusyAndDoneExclusive : Prop :=
  ∀ s t : State, s.HandshakeInv → step s = .next t → t.HandshakeInv

/-- INVARIANT, 10 R31, R32: ERRTOK and ERRSLOT are 0 where they carry no meaning and ERRSLOT is never 5 to 7. -/
def Obligations.StepsKeepTheFailureRecord : Prop :=
  ∀ s t : State, s.FailureInv → step s = .next t → t.FailureInv

/-- INVARIANT, 10 R34: OUT holds values exactly below OUTLEN. -/
def Obligations.StepsKeepOutExact : Prop :=
  ∀ s t : State, s.OutInv → step s = .next t → t.OutInv

/-- INVARIANT, 00 R8, 20 R60: every length stays within its capacity and no byte stands outside its space; OUT never
overflows, whatever the capacities. -/
def Obligations.StepsKeepTheCapacities : Prop :=
  ∀ s t : State, s.CapacityInv → step s = .next t → t.CapacityInv

/-- The reset state meets every invariant. -/
def Obligations.ResetMeetsTheInvariants : Prop :=
  State.reset.memWf ∧ State.reset.HandshakeInv ∧ State.reset.FailureInv ∧ State.reset.OutInv ∧
    State.reset.CapacityInv

/-! ## Decoding -/

/-- 30 R92: the four codes, each written out, decode to their operations. -/
def Obligations.TheFourCodesDecode : Prop :=
  decode [0b00000000#8] = .ok (.encw, []) ∧ decode [0b00000001#8] = .ok (.decw, []) ∧
  decode [0b00000010#8] = .ok (.encb, []) ∧ decode [0b00000011#8] = .ok (.decb, [])

/-- Decode and encode agree: the bytes that decode to an operation are its encoding and no others, and every operation
is well formed. -/
def Obligations.DecodingInvertsEncoding : Prop :=
  ∀ (i : Instr) (bytes rest : List Byte),
    (decode bytes = .ok (i, rest) ↔ bytes = encode i ++ rest) ∧ decodeOp (encodeOp i) = i ∧ i.wellFormed = true

/-! ## The refusal of R200 H7 -/

/-- 43 R179, 44 R200 H7, 93 U3 (log 8): dutyStep refuses the completion of a DECB with SEPLEN = 0 and is step everywhere
else; step completes that command and marks the run, the mark is set there and nowhere else, and only a reset clears it;
so a run of dutyStep is never marked. -/
def Obligations.DutyStepRefusesWhatTheMarkRecords : Prop :=
  (∀ s : State, s.blockNext → s.busy = true → s.op = 0b11#2 → s.seplen = 0 →
    dutyStep s = .refused .emptySeparator ∧ ∃ t, step s = .next t ∧ t.offSpec = true) ∧
  (∀ s : State, ¬ (s.blockNext ∧ s.busy = true ∧ s.op = 0b11#2 ∧ s.seplen = 0) → dutyStep s = step s) ∧
  (∀ s t : State, step s = .next t →
    (t.offSpec = true ↔
      ¬ s.resetNext ∧ (s.offSpec = true ∨ (s.blockNext ∧ s.busy = true ∧ s.op = 0b11#2 ∧ s.seplen = 0)))) ∧
  (∀ s t : State, s.offSpec = false → dutyStep s = .next t → t.offSpec = false)
end

