-- ==== Sys2Proof/Laws/Codec.lean ====
section
/-! SUPPORT. One spec lemma per function of the codec: the ROM lookups and their inverses, the splitter and the merger,
the lanes, the chunks, join, the scan of split, the candidate loop. -/

namespace Sys2Proof

/-! ## The alphabets -/

theorem Rom.legal_nodup {r : Rom} (h : r.legal = true) : r.symbols.Nodup := by
  simp only [Rom.legal, Bool.and_eq_true, decide_eq_true_eq] at h; exact h.2

theorem Rom.legal_consonants_nodup {r : Rom} (h : r.legal = true) : r.crom.toList.Nodup :=
  (List.nodup_append.1 (Rom.legal_nodup h)).1

theorem Rom.legal_vowels_nodup {r : Rom} (h : r.legal = true) : r.vrom.toList.Nodup :=
  (List.nodup_append.1 (Rom.legal_nodup h)).2.1

theorem Rom.legal_disjoint {r : Rom} (h : r.legal = true) {c : Byte} (hc : c ∈ r.crom.toList) : c ∉ r.vrom.toList :=
  fun hv => (List.nodup_append.1 (Rom.legal_nodup h)).2.2 c hc c hv rfl

theorem Rom.cons_mem (r : Rom) (i : BitVec 4) : r.cons i ∈ r.crom.toList := by
  simp [Rom.cons]

theorem Rom.vowel_mem (r : Rom) (i : BitVec 2) : r.vowel i ∈ r.vrom.toList := by
  simp [Rom.vowel]

/-- An inverse lookup is valid exactly on the bytes of its ROM. -/
theorem Rom.cinv_valid {r : Rom} {c : Byte} : (r.cinv c).1 = true ↔ c ∈ r.crom.toList := by
  unfold Rom.cinv
  cases h : r.crom.toList.findIdx? (· == c) with
  | some i =>
    simp only [true_iff]
    obtain ⟨hi, hp, -⟩ := List.findIdx?_eq_some_iff_getElem.1 h
    exact (beq_iff_eq.1 hp) ▸ List.getElem_mem hi
  | none =>
    simp only [Bool.false_eq_true, false_iff]
    intro hc
    have := List.findIdx?_eq_none_iff.1 h c hc
    simp at this

theorem Rom.vinv_valid {r : Rom} {c : Byte} : (r.vinv c).1 = true ↔ c ∈ r.vrom.toList := by
  unfold Rom.vinv
  cases h : r.vrom.toList.findIdx? (· == c) with
  | some i =>
    simp only [true_iff]
    obtain ⟨hi, hp, -⟩ := List.findIdx?_eq_some_iff_getElem.1 h
    exact (beq_iff_eq.1 hp) ▸ List.getElem_mem hi
  | none =>
    simp only [Bool.false_eq_true, false_iff]
    intro hc
    have := List.findIdx?_eq_none_iff.1 h c hc
    simp at this

theorem Rom.cinv_invalid {r : Rom} {c : Byte} : (r.cinv c).1 = false ↔ c ∉ r.crom.toList := by
  rw [← Rom.cinv_valid, Bool.not_eq_true]

theorem Rom.vinv_invalid {r : Rom} {c : Byte} : (r.vinv c).1 = false ↔ c ∉ r.vrom.toList := by
  rw [← Rom.vinv_valid, Bool.not_eq_true]

/-- The index a valid inverse lookup returns is that of the byte. -/
theorem Rom.cons_cinv {r : Rom} {c : Byte} (h : (r.cinv c).1 = true) : r.cons (r.cinv c).2 = c := by
  revert h
  unfold Rom.cinv
  cases h : r.crom.toList.findIdx? (· == c) with
  | none => simp
  | some i =>
    intro _
    obtain ⟨hi, hp, -⟩ := List.findIdx?_eq_some_iff_getElem.1 h
    have hlt : i < 16 := by simpa using hi
    have hm : i % 16 = i := Nat.mod_eq_of_lt hlt
    have : r.crom[i] = c := by simpa using beq_iff_eq.1 hp
    simp [Rom.cons, hm, this]

theorem Rom.vowel_vinv {r : Rom} {c : Byte} (h : (r.vinv c).1 = true) : r.vowel (r.vinv c).2 = c := by
  revert h
  unfold Rom.vinv
  cases h : r.vrom.toList.findIdx? (· == c) with
  | none => simp
  | some i =>
    intro _
    obtain ⟨hi, hp, -⟩ := List.findIdx?_eq_some_iff_getElem.1 h
    have hlt : i < 4 := by simpa using hi
    have hm : i % 4 = i := Nat.mod_eq_of_lt hlt
    have : r.vrom[i] = c := by simpa using beq_iff_eq.1 hp
    simp [Rom.vowel, hm, this]

/-- Two different consonant indices hold different bytes, where the entries are distinct. -/
theorem Rom.cons_injective {r : Rom} (h : r.crom.toList.Nodup) {i j : BitVec 4} (e : r.cons i = r.cons j) : i = j := by
  have := (List.Nodup.getElem_inj_iff h (i := i.toNat) (j := j.toNat)
    (hi := by simpa using i.isLt) (hj := by simpa using j.isLt)).1 (by simpa [Rom.cons] using e)
  exact BitVec.eq_of_toNat_eq this

theorem Rom.vowel_injective {r : Rom} (h : r.vrom.toList.Nodup) {i j : BitVec 2} (e : r.vowel i = r.vowel j) : i = j := by
  have := (List.Nodup.getElem_inj_iff h (i := i.toNat) (j := j.toNat)
    (hi := by simpa using i.isLt) (hj := by simpa using j.isLt)).1 (by simpa [Rom.vowel] using e)
  exact BitVec.eq_of_toNat_eq this

/-! ## Fields, lanes, byte pairs -/

theorem mergeFields_getLsbD (f : Fields) (i : Nat) :
    (mergeFields f).getLsbD i = (f.c0 ++ f.v0 ++ f.c1 ++ f.v1 ++ f.c2).getLsbD i := rfl

@[simp] theorem mergeFields_splitWord (w : Word) : mergeFields (splitWord w) = w := by
  apply BitVec.eq_of_getLsbD_eq
  intro i hi
  simp only [mergeFields_getLsbD, splitWord, BitVec.getLsbD_append, BitVec.getLsbD_extractLsb']
  interval_cases i <;> simp

@[simp] theorem splitWord_mergeFields (f : Fields) : splitWord (mergeFields f) = f := by
  obtain ⟨c0, v0, c1, v1, c2⟩ := f
  simp only [splitWord, mergeFields, Fields.mk.injEq]
  refine ⟨?_, ?_, ?_, ?_, ?_⟩ <;>
  · apply BitVec.eq_of_getElem_eq
    intro i hi
    simp only [BitVec.getElem_extractLsb', BitVec.getLsbD_append]
    interval_cases i <;> simp [BitVec.getLsbD_eq_getElem]

@[simp] theorem tokenLanes_tokenOfLanes (c0 c1 c2 c3 c4 : Byte) :
    tokenLanes (tokenOfLanes c0 c1 c2 c3 c4) = [c0, c1, c2, c3, c4] := by
  simp only [tokenLanes, tokenOfLanes, List.cons.injEq, and_true]
  refine ⟨?_, ?_, ?_, ?_, ?_⟩ <;>
  · apply BitVec.eq_of_getElem_eq
    intro i hi
    simp only [BitVec.getElem_extractLsb', BitVec.getLsbD_append]
    interval_cases i <;> simp [BitVec.getLsbD_eq_getElem]

theorem wordOfBytes_getLsbD (a b : Byte) (i : Nat) : (wordOfBytes a b).getLsbD i = (a ++ b).getLsbD i := rfl

@[simp] theorem wordOfBytes_highByte_lowByte (w : Word) : wordOfBytes (highByte w) (lowByte w) = w := by
  apply BitVec.eq_of_getLsbD_eq
  intro i hi
  simp only [wordOfBytes_getLsbD, highByte, lowByte, BitVec.getLsbD_append, BitVec.getLsbD_extractLsb']
  interval_cases i <;> simp

@[simp] theorem highByte_wordOfBytes (a b : Byte) : highByte (wordOfBytes a b) = a := by
  apply BitVec.eq_of_getElem_eq
  intro i hi
  simp only [wordOfBytes, highByte, BitVec.getLsbD_append, BitVec.getElem_extractLsb']
  interval_cases i <;> simp [BitVec.getLsbD_eq_getElem]

@[simp] theorem lowByte_wordOfBytes (a b : Byte) : lowByte (wordOfBytes a b) = b := by
  apply BitVec.eq_of_getElem_eq
  intro i hi
  simp only [wordOfBytes, lowByte, BitVec.getLsbD_append, BitVec.getElem_extractLsb']
  interval_cases i <;> simp [BitVec.getLsbD_eq_getElem]

/-! ## Tokens and words -/

@[simp] theorem encodeWord_length (r : Rom) (w : Word) : (encodeWord r w).length = 5 := rfl

/-- The module's five lanes are the characters of the function. -/
theorem tokenLanes_encodeWordModule (r : Rom) (w : Word) : tokenLanes (encodeWordModule r w) = encodeWord r w := by
  simp [encodeWordModule, encodeWord]

/-- A token decodes to the merged indices exactly where its five bytes are members of their slots' alphabets. -/
theorem decodeSymbols_eq_ok {r : Rom} {c0 c1 c2 c3 c4 : Byte} {w : Word} :
    decodeSymbols r c0 c1 c2 c3 c4 = .ok w ↔
      ((r.cinv c0).1 = true ∧ (r.vinv c1).1 = true ∧ (r.cinv c2).1 = true ∧ (r.vinv c3).1 = true ∧ (r.cinv c4).1 = true)
        ∧ mergeFields ⟨(r.cinv c0).2, (r.vinv c1).2, (r.cinv c2).2, (r.vinv c3).2, (r.cinv c4).2⟩ = w := by
  simp only [decodeSymbols, firstBadSlot]
  cases (r.cinv c0).1 <;> cases (r.vinv c1).1 <;> cases (r.cinv c2).1 <;> cases (r.vinv c3).1 <;>
    cases (r.cinv c4).1 <;> simp

/-- A token that decodes has five characters. -/
theorem decodeWord_ok_length {r : Rom} {t : List Byte} {w : Word} (h : decodeWord r t = .ok w) : t.length = 5 := by
  unfold decodeWord at h
  split at h
  · rfl
  · cases h

/-- A failing token names itself token 0, never InvalidInputLength, and a slot of 0 to 4 only for InvalidSymbol. -/
theorem decodeWord_fail {r : Rom} {t : List Byte} {e : Failure} {tok : Nat} {slot : BitVec 3}
    (h : decodeWord r t = .fail e tok slot) :
    tok = 0 ∧ ((e = .invalidLength ∧ slot = 0#3) ∨ (e = .invalidSymbol ∧ slot.toNat ≤ 4)) := by
  unfold decodeWord at h
  split at h
  · simp only [decodeSymbols] at h
    split at h
    · rename_i k hk
      injection h with h1 h2 h3
      subst h1 h2 h3
      refine ⟨rfl, .inr ⟨rfl, ?_⟩⟩
      unfold firstBadSlot at hk
      repeat' split at hk
      all_goals simp_all
      all_goals subst hk; decide
    · cases h
  · injection h with h1 h2 h3
    subst h1 h2 h3
    exact ⟨rfl, .inl ⟨rfl, rfl⟩⟩

/-! ## Buffers -/

theorem wordsOf_length : (data : List Byte) → (wordsOf data).length = data.length / 2
  | [] => rfl
  | [_] => by simp [wordsOf]
  | _ :: _ :: rest => by simp only [wordsOf, List.length_cons, wordsOf_length rest]; omega

/-- N tokens of five characters joined by L bytes each have 5N + (N-1)L characters. -/
theorem joinTokens_length (sep : List Byte) :
    (toks : List (List Byte)) → (∀ t ∈ toks, t.length = 5) →
      (joinTokens sep toks).length = 5 * toks.length + (toks.length - 1) * sep.length
  | [], _ => by simp [joinTokens]
  | [t], h => by simp [joinTokens, h t]
  | t :: u :: rest, h => by
    have ih := joinTokens_length sep (u :: rest) (fun x hx => h x (List.mem_cons_of_mem _ hx))
    have ht := h t List.mem_cons_self
    simp only [joinTokens, List.length_append, ih, ht, List.length_cons, Nat.add_sub_cancel]
    ring

/-- A successful encoding has the bytes of the joined tokens. -/
theorem encodeBuffer_eq_ok {r : Rom} {data sep out : List Byte} :
    encodeBuffer r data sep = .ok out ↔
      data.length % 2 = 0 ∧ out = joinTokens sep ((wordsOf data).map (encodeWord r)) := by
  unfold encodeBuffer
  split
  · rename_i h; simp [h]
  · rename_i h
    have : data.length % 2 = 0 := by omega
    simp only [Result.ok.injEq, this, true_and]
    exact eq_comm

/-- The candidate gathered so far is the head of what the scan yields. -/
theorem splitScan_cur (sep : List Byte) (text : List Byte) :
    ∀ (skip : Nat) (cur : List Byte),
      splitScan sep skip cur text = (cur ++ (splitScan sep skip [] text).headI) :: (splitScan sep skip [] text).tail := by
  induction text with
  | nil => intro skip cur; simp [splitScan]
  | cons c rest ih =>
    intro skip cur
    cases skip with
    | succ k => simp only [splitScan]; exact ih k cur
    | zero =>
      simp only [splitScan]
      split
      · simp
      · rw [ih 0 (cur ++ [c]), ih 0 ([] ++ [c])]; simp

/-- Passing over the bytes of a recognised separator drops them. -/
theorem splitScan_skip (sep : List Byte) (text : List Byte) :
    ∀ (skip : Nat), splitScan sep skip [] text = splitScan sep 0 [] (text.drop skip) := by
  induction text with
  | nil => intro skip; simp [splitScan]
  | cons c rest ih =>
    intro skip
    cases skip with
    | zero => rfl
    | succ k => simpa only [splitScan, List.drop_succ_cons] using ih k

/-- There is at least one candidate, and at most one more than there are bytes of text. -/
theorem splitScan_length (sep : List Byte) (text : List Byte) :
    ∀ (skip : Nat) (cur : List Byte),
      1 ≤ (splitScan sep skip cur text).length ∧ (splitScan sep skip cur text).length ≤ text.length + 1 := by
  induction text with
  | nil => intro skip cur; simp [splitScan]
  | cons c rest ih =>
    intro skip cur
    cases skip with
    | succ k => have := ih k cur; simp only [splitScan, List.length_cons]; omega
    | zero =>
      simp only [splitScan]
      split
      · have := ih (sep.length - 1) []; simp only [List.length_cons]; omega
      · have := ih 0 (cur ++ [c]); simp only [List.length_cons]; omega

/-- All candidates decode: the result is two bytes for each of them, and each has five characters. -/
theorem decodeCandidates_ok {r : Rom} {cands : List (List Byte)} :
    ∀ {j : Nat} {out : List Byte}, decodeCandidates r j cands = .ok out →
      out.length = 2 * cands.length ∧ ∀ c ∈ cands, c.length = 5 := by
  induction cands with
  | nil => intro j out h; simp only [decodeCandidates, Result.ok.injEq] at h; subst h; simp
  | cons c rest ih =>
    intro j out h
    simp only [decodeCandidates] at h
    split at h
    · cases h
    · rename_i w hw
      split at h
      · cases h
      · rename_i out' hout
        simp only [Result.ok.injEq] at h
        subst h
        obtain ⟨hl, hc⟩ := ih hout
        refine ⟨by simp only [List.length_cons, hl]; ring, fun x hx => ?_⟩
        rcases List.mem_cons.1 hx with rfl | hx
        · exact decodeWord_ok_length hw
        · exact hc x hx

/-- A failing list of candidates names one of its indices, the failure of that candidate unchanged. -/
theorem decodeCandidates_fail {r : Rom} {cands : List (List Byte)} :
    ∀ {j : Nat} {e : Failure} {tok : Nat} {slot : BitVec 3}, decodeCandidates r j cands = .fail e tok slot →
      j ≤ tok ∧ tok < j + cands.length
        ∧ ((e = .invalidLength ∧ slot = 0#3) ∨ (e = .invalidSymbol ∧ slot.toNat ≤ 4)) := by
  induction cands with
  | nil => intro j e tok slot h; simp [decodeCandidates] at h
  | cons c rest ih =>
    intro j e tok slot h
    simp only [decodeCandidates] at h
    split at h
    · rename_i e' k slot' hw
      simp only [Result.fail.injEq] at h
      obtain ⟨rfl, rfl, rfl⟩ := h
      exact ⟨le_refl _, by simp, (decodeWord_fail hw).2⟩
    · rename_i w hw
      split at h
      · rename_i e' tok' slot' hr
        simp only [Result.fail.injEq] at h
        obtain ⟨rfl, rfl, rfl⟩ := h
        obtain ⟨h1, h2, h3⟩ := ih hr
        exact ⟨by omega, by simp only [List.length_cons]; omega, h3⟩
      · cases h

end Sys2Proof
end

