-- ==== Sys2Proof/Laws/Memory.lean ====
section
/-! SUPPORT. The byte memories: what a read gives after a write, and that every operation keeps the canonical form. -/

namespace Sys2Proof.Machine

@[simp] theorem Memory.find_nil (a : Nat) : Memory.find [] a = none := rfl

theorem Memory.find_insert (m : Memory) (a x : Nat) (b : Byte) :
    Memory.find (Memory.insert m a b) x = if x = a then some b else Memory.find m x := by
  induction m with
  | nil => grind [Memory.insert, Memory.find]
  | cons c rest ih => grind [Memory.insert, Memory.find]

theorem Memory.find_filter (m : Memory) (a x : Nat) :
    Memory.find (m.filter (fun c => c.1 != a)) x = if x = a then none else Memory.find m x := by
  induction m with
  | nil => simp
  | cons c rest ih => grind [Memory.find]

/-- A read after a write to the same address gives the value written; every other address reads as before. -/
theorem Memory.read_write (sp : Space) (m : Memory) (a x : Nat) (b : Byte) :
    Memory.read sp (Memory.write sp m a b) x = if x = a then some b else Memory.read sp m x := by
  unfold Memory.write
  split
  · rename_i h
    simp only [Memory.read, Memory.find_filter]
    by_cases hx : x = a <;> simp [hx, h]
  · simp only [Memory.read, Memory.find_insert]
    by_cases hx : x = a <;> simp [hx]

theorem Memory.mem_insert {m : Memory} {a : Nat} {b : Byte} {c : Host.Cell} (h : c ∈ Memory.insert m a b) :
    c = (a, b) ∨ c ∈ m := by
  induction m with
  | nil => simpa [Memory.insert] using h
  | cons d rest ih =>
    obtain ⟨k, d⟩ := d
    simp only [Memory.insert] at h
    split at h
    · simpa using h
    · split at h
      · rcases List.mem_cons.1 h with h | h
        · exact .inl h
        · exact .inr (List.mem_cons_of_mem _ h)
      · rcases List.mem_cons.1 h with h | h
        · exact .inr (h ▸ List.mem_cons_self)
        · rcases ih h with h | h
          · exact .inl h
          · exact .inr (List.mem_cons_of_mem _ h)

theorem Memory.sorted_insert {m : Memory} (a : Nat) (b : Byte) (h : m.Pairwise (fun x y => x.1 < y.1)) :
    (Memory.insert m a b).Pairwise (fun x y => x.1 < y.1) := by
  induction m with
  | nil => simp [Memory.insert]
  | cons d rest ih =>
    obtain ⟨k, d⟩ := d
    obtain ⟨hk, hr⟩ := List.pairwise_cons.1 h
    simp only [Memory.insert]
    split
    · rename_i hlt
      refine List.pairwise_cons.2 ⟨fun c hc => ?_, h⟩
      rcases List.mem_cons.1 hc with rfl | hc
      · exact hlt
      · exact Nat.lt_trans hlt (hk c hc)
    · split
      · rename_i heq
        subst heq
        exact List.pairwise_cons.2 ⟨hk, hr⟩
      · refine List.pairwise_cons.2 ⟨fun c hc => ?_, ih hr⟩
        rcases Memory.mem_insert hc with rfl | hc
        · show k < a; omega
        · exact hk c hc

/-- A write keeps the canonical form. -/
theorem Memory.wf_write {sp : Space} {m : Memory} (a : Nat) (b : Byte) (h : Memory.wf sp m) :
    Memory.wf sp (Memory.write sp m a b) := by
  unfold Memory.write
  split
  · exact ⟨h.1.filter _, fun c hc => h.2 c (List.mem_of_mem_filter hc)⟩
  · rename_i hb
    refine ⟨Memory.sorted_insert a b h.1, fun c hc => ?_⟩
    rcases Memory.mem_insert hc with rfl | hc
    · exact fun he => hb he.symm
    · exact h.2 c hc

/-- A write lists no address but its own beside those listed before. -/
theorem Memory.mem_write {sp : Space} {m : Memory} {a : Nat} {b : Byte} {c : Host.Cell}
    (h : c ∈ Memory.write sp m a b) : c.1 = a ∨ c ∈ m := by
  unfold Memory.write at h
  split at h
  · exact .inr (List.mem_of_mem_filter h)
  · rcases Memory.mem_insert h with rfl | h
    · exact .inl rfl
    · exact .inr h

theorem Memory.mem_ofBytes {c : Host.Cell} {bs : List Byte} {a : Nat} (h : c ∈ Memory.ofBytes a bs) :
    a ≤ c.1 ∧ c.1 < a + bs.length := by
  induction bs generalizing a with
  | nil => simp [Memory.ofBytes] at h
  | cons b bs ih =>
    rcases List.mem_cons.1 h with rfl | h
    · simp
    · have := ih h; simp only [List.length_cons]; omega

/-- The memory of a run of bytes is in canonical form in the spaces whose unlisted addresses have no value. -/
theorem Memory.wf_ofBytes {sp : Space} (hsp : sp.unlisted = none) (a : Nat) (bs : List Byte) :
    Memory.wf sp (Memory.ofBytes a bs) := by
  refine ⟨?_, fun c _ => by simp [hsp]⟩
  induction bs generalizing a with
  | nil => exact List.Pairwise.nil
  | cons b bs ih =>
    refine List.pairwise_cons.2 ⟨fun c hc => ?_, ih (a + 1)⟩
    have := Memory.mem_ofBytes hc
    show a < c.1; omega

theorem Memory.find_ofBytes (bs : List Byte) (a x : Nat) :
    Memory.find (Memory.ofBytes a bs) x = if a ≤ x then bs[x - a]? else none := by
  induction bs generalizing a with
  | nil => simp [Memory.ofBytes]
  | cons b bs ih =>
    simp only [Memory.ofBytes, Memory.find, ih]
    by_cases h : a = x
    · subst h; simp
    · by_cases h2 : a ≤ x
      · have h3 : a + 1 ≤ x := by omega
        have h4 : x - a = x - (a + 1) + 1 := by omega
        simp [h, h2, h3, h4]
      · have h3 : ¬ a + 1 ≤ x := by omega
        simp [h, h2, h3]

/-- Byte `a` of an OUT that holds exactly `bs` is the `a`-th of them, and there is none beyond. -/
theorem Memory.read_ofBytes (bs : List Byte) (a : Nat) :
    Memory.read .outBuf (Memory.ofBytes 0 bs) a = bs[a]? := by
  simp only [Memory.read, Memory.find_ofBytes, Nat.zero_le, if_true, Nat.sub_zero]
  cases bs[a]? <;> rfl

/-- Reading a run of bytes gives the byte of each address, and exists exactly where each of them has a value. -/
theorem Memory.readBytes_eq_some {sp : Space} {m : Memory} {a n : Nat} {bs : List Byte} :
    Memory.readBytes sp m a n = some bs ↔
      bs.length = n ∧ ∀ i, i < n → Memory.read sp m (a + i) = bs[i]? := by
  induction n generalizing a bs with
  | zero =>
    simp only [Memory.readBytes, Option.some.injEq, Nat.not_lt_zero, false_implies, implies_true, and_true]
    constructor
    · rintro rfl; rfl
    · intro h; exact (List.eq_nil_of_length_eq_zero h).symm
  | succ n ih =>
    simp only [Memory.readBytes]
    constructor
    · intro h
      split at h
      · rename_i b bs' hb hbs
        cases h
        obtain ⟨hl, hi⟩ := ih.1 hbs
        refine ⟨by simp [hl], fun i hin => ?_⟩
        cases i with
        | zero => simpa using hb
        | succ i =>
          have := hi i (by omega)
          rw [show a + (i + 1) = a + 1 + i from by omega, this]
          simp
      · cases h
    · rintro ⟨hl, hi⟩
      cases bs with
      | nil => simp at hl
      | cons b bs =>
        have h0 := hi 0 (by omega)
        have hrest : Memory.readBytes sp m (a + 1) n = some bs := by
          refine ih.2 ⟨by simpa using hl, fun i hin => ?_⟩
          have := hi (i + 1) (by omega)
          rw [show a + 1 + i = a + (i + 1) from by omega, this]
          simp
        simp only [Nat.add_zero, List.getElem?_cons_zero] at h0
        simp [h0, hrest]

/-- Reading a run fails exactly where some byte of it has no value. -/
theorem Memory.readBytes_eq_none {sp : Space} {m : Memory} {a n : Nat} :
    Memory.readBytes sp m a n = none ↔ ∃ i, i < n ∧ Memory.read sp m (a + i) = none := by
  induction n generalizing a with
  | zero => simp [Memory.readBytes]
  | succ n ih =>
    simp only [Memory.readBytes]
    constructor
    · intro h
      split at h
      · cases h
      · rename_i hno
        cases hb : Memory.read sp m a with
        | none => exact ⟨0, by omega, by simpa using hb⟩
        | some b =>
          cases hr : Memory.readBytes sp m (a + 1) n with
          | some bs => exact absurd hr (hno b bs hb)
          | none =>
            obtain ⟨i, hi, hn⟩ := ih.1 hr
            exact ⟨i + 1, by omega, by rw [show a + (i + 1) = a + 1 + i from by omega]; exact hn⟩
    · rintro ⟨i, hi, hn⟩
      split
      · rename_i b bs hb hbs
        cases i with
        | zero => rw [Nat.add_zero, hb] at hn; cases hn
        | succ i =>
          have : Memory.readBytes sp m (a + 1) n = none :=
            ih.2 ⟨i, by omega, by rw [show a + 1 + i = a + (i + 1) from by omega]; exact hn⟩
          rw [this] at hbs; cases hbs
      · rfl

/-- The reset state's memories are in canonical form. -/
theorem State.memWf_reset : State.reset.memWf := by decide

/-- The bytes of the operand IN[0..INLEN-1] are the bytes of its addresses. -/
theorem State.inBytes_eq_some {s : State} {bs : List Byte} :
    s.inBytes = some bs ↔ bs.length = s.inlen ∧ ∀ a, a < s.inlen → s.inByte a = bs[a]? := by
  simp only [State.inBytes, State.inByte, Memory.readBytes_eq_some, Nat.zero_add]

/-- The operand is missing exactly where one of its bytes has not been written. -/
theorem State.inBytes_eq_none {s : State} :
    s.inBytes = none ↔ ∃ a, a < s.inlen ∧ s.inByte a = none := by
  simp only [State.inBytes, State.inByte, Memory.readBytes_eq_none, Nat.zero_add]

@[simp] theorem State.sepBytes_length (s : State) : s.sepBytes.length = s.seplen := by simp [State.sepBytes]

theorem State.sepBytes_getElem? {s : State} {j : Nat} (h : j < s.seplen) : s.sepBytes[j]? = some (s.sepByte j) := by
  simp [State.sepBytes, h]

/-- SEP[j] is what the memory operation reads. -/
theorem State.sepByte_read (s : State) (j : Nat) : Memory.read .sep s.sep j = some (s.sepByte j) := by
  unfold Memory.read State.sepByte
  cases Memory.find s.sep j <;> rfl

end Sys2Proof.Machine
end

