-- ==== Sys2Proof/Laws/PerInstr.lean ====
section
/-! SUPPORT. Statements made for every constructor of Instr: each operation has the row of opcode_table.json that its
code matches, and no other operation matches that row (30 R92). -/

namespace Sys2Proof.Laws.OpcodeRow

/-- The operation's code matches a row of the table that no other operation's code matches. -/
def Statement (i : Instr) : Prop :=
  i.wellFormed = true ∧
    ∃ row ∈ opTable, encodeOp i &&& row.mask = row.pattern ∧ ∀ j, encodeOp j &&& row.mask = row.pattern → j = i

theorem encw : Statement .encw :=
  ⟨rfl, ⟨"ENCW", 0b11#2, 0b00#2⟩, by decide, by decide, by intro j; cases j <;> decide⟩

theorem decw : Statement .decw :=
  ⟨rfl, ⟨"DECW", 0b11#2, 0b01#2⟩, by decide, by decide, by intro j; cases j <;> decide⟩

theorem encb : Statement .encb :=
  ⟨rfl, ⟨"ENCB", 0b11#2, 0b10#2⟩, by decide, by decide, by intro j; cases j <;> decide⟩

theorem decb : Statement .decb :=
  ⟨rfl, ⟨"DECB", 0b11#2, 0b11#2⟩, by decide, by decide, by intro j; cases j <;> decide⟩

end Sys2Proof.Laws.OpcodeRow
end

