-- ==== Sys2Proof/Laws/State.lean ====
section
/-! SUPPORT. One lemma per field per named update of the state, so that no proof unfolds a record update. -/

namespace Sys2Proof.Machine

@[simp] theorem State.accept_w (s : State) : (s.accept).w = s.w := rfl
@[simp] theorem State.accept_t (s : State) : (s.accept).t = s.t := rfl
@[simp] theorem State.accept_tlen (s : State) : (s.accept).tlen = s.tlen := rfl
@[simp] theorem State.accept_op (s : State) : (s.accept).op = s.op := rfl
@[simp] theorem State.accept_seplen (s : State) : (s.accept).seplen = s.seplen := rfl
@[simp] theorem State.accept_sep (s : State) : (s.accept).sep = s.sep := rfl
@[simp] theorem State.accept_inlen (s : State) : (s.accept).inlen = s.inlen := rfl
@[simp] theorem State.accept_outlen (s : State) : (s.accept).outlen = s.outlen := rfl
@[simp] theorem State.accept_busy (s : State) : (s.accept).busy = true := rfl
@[simp] theorem State.accept_done (s : State) : (s.accept).done = false := rfl
@[simp] theorem State.accept_err (s : State) : (s.accept).err = s.err := rfl
@[simp] theorem State.accept_errtok (s : State) : (s.accept).errtok = s.errtok := rfl
@[simp] theorem State.accept_errslot (s : State) : (s.accept).errslot = s.errslot := rfl
@[simp] theorem State.accept_inBuf (s : State) : (s.accept).inBuf = s.inBuf := rfl
@[simp] theorem State.accept_outBuf (s : State) : (s.accept).outBuf = s.outBuf := rfl
@[simp] theorem State.accept_rom (s : State) : (s.accept).rom = s.rom := rfl
@[simp] theorem State.accept_cap (s : State) : (s.accept).cap = s.cap := rfl
@[simp] theorem State.accept_turns (s : State) : (s.accept).turns = s.turns := rfl
@[simp] theorem State.accept_answers (s : State) : (s.accept).answers = s.answers := rfl
@[simp] theorem State.accept_draws (s : State) : (s.accept).draws = s.draws := rfl
@[simp] theorem State.accept_offSpec (s : State) : (s.accept).offSpec = s.offSpec := rfl

@[simp] theorem State.complete_w (s : State) (e : BitVec 2) (k : Nat) (l : BitVec 3) : (s.complete e k l).w = s.w := rfl
@[simp] theorem State.complete_t (s : State) (e : BitVec 2) (k : Nat) (l : BitVec 3) : (s.complete e k l).t = s.t := rfl
@[simp] theorem State.complete_tlen (s : State) (e : BitVec 2) (k : Nat) (l : BitVec 3) : (s.complete e k l).tlen = s.tlen := rfl
@[simp] theorem State.complete_op (s : State) (e : BitVec 2) (k : Nat) (l : BitVec 3) : (s.complete e k l).op = s.op := rfl
@[simp] theorem State.complete_seplen (s : State) (e : BitVec 2) (k : Nat) (l : BitVec 3) : (s.complete e k l).seplen = s.seplen := rfl
@[simp] theorem State.complete_sep (s : State) (e : BitVec 2) (k : Nat) (l : BitVec 3) : (s.complete e k l).sep = s.sep := rfl
@[simp] theorem State.complete_inlen (s : State) (e : BitVec 2) (k : Nat) (l : BitVec 3) : (s.complete e k l).inlen = s.inlen := rfl
@[simp] theorem State.complete_outlen (s : State) (e : BitVec 2) (k : Nat) (l : BitVec 3) : (s.complete e k l).outlen = s.outlen := rfl
@[simp] theorem State.complete_busy (s : State) (e : BitVec 2) (k : Nat) (l : BitVec 3) : (s.complete e k l).busy = false := rfl
@[simp] theorem State.complete_done (s : State) (e : BitVec 2) (k : Nat) (l : BitVec 3) : (s.complete e k l).done = true := rfl
@[simp] theorem State.complete_err (s : State) (e : BitVec 2) (k : Nat) (l : BitVec 3) : (s.complete e k l).err = e := rfl
@[simp] theorem State.complete_errtok (s : State) (e : BitVec 2) (k : Nat) (l : BitVec 3) : (s.complete e k l).errtok = k := rfl
@[simp] theorem State.complete_errslot (s : State) (e : BitVec 2) (k : Nat) (l : BitVec 3) : (s.complete e k l).errslot = l := rfl
@[simp] theorem State.complete_inBuf (s : State) (e : BitVec 2) (k : Nat) (l : BitVec 3) : (s.complete e k l).inBuf = s.inBuf := rfl
@[simp] theorem State.complete_outBuf (s : State) (e : BitVec 2) (k : Nat) (l : BitVec 3) : (s.complete e k l).outBuf = s.outBuf := rfl
@[simp] theorem State.complete_rom (s : State) (e : BitVec 2) (k : Nat) (l : BitVec 3) : (s.complete e k l).rom = s.rom := rfl
@[simp] theorem State.complete_cap (s : State) (e : BitVec 2) (k : Nat) (l : BitVec 3) : (s.complete e k l).cap = s.cap := rfl
@[simp] theorem State.complete_turns (s : State) (e : BitVec 2) (k : Nat) (l : BitVec 3) : (s.complete e k l).turns = s.turns := rfl
@[simp] theorem State.complete_answers (s : State) (e : BitVec 2) (k : Nat) (l : BitVec 3) : (s.complete e k l).answers = s.answers := rfl
@[simp] theorem State.complete_draws (s : State) (e : BitVec 2) (k : Nat) (l : BitVec 3) : (s.complete e k l).draws = s.draws := rfl
@[simp] theorem State.complete_offSpec (s : State) (e : BitVec 2) (k : Nat) (l : BitVec 3) : (s.complete e k l).offSpec = s.offSpec := rfl

@[simp] theorem State.report_w (s : State) {α : Type} (r : Result α) : (s.report r).w = s.w := rfl
@[simp] theorem State.report_t (s : State) {α : Type} (r : Result α) : (s.report r).t = s.t := rfl
@[simp] theorem State.report_tlen (s : State) {α : Type} (r : Result α) : (s.report r).tlen = s.tlen := rfl
@[simp] theorem State.report_op (s : State) {α : Type} (r : Result α) : (s.report r).op = s.op := rfl
@[simp] theorem State.report_seplen (s : State) {α : Type} (r : Result α) : (s.report r).seplen = s.seplen := rfl
@[simp] theorem State.report_sep (s : State) {α : Type} (r : Result α) : (s.report r).sep = s.sep := rfl
@[simp] theorem State.report_inlen (s : State) {α : Type} (r : Result α) : (s.report r).inlen = s.inlen := rfl
@[simp] theorem State.report_outlen (s : State) {α : Type} (r : Result α) : (s.report r).outlen = s.outlen := rfl
@[simp] theorem State.report_busy (s : State) {α : Type} (r : Result α) : (s.report r).busy = false := rfl
@[simp] theorem State.report_done (s : State) {α : Type} (r : Result α) : (s.report r).done = true := rfl
@[simp] theorem State.report_err (s : State) {α : Type} (r : Result α) : (s.report r).err = r.errCode := rfl
@[simp] theorem State.report_errtok (s : State) {α : Type} (r : Result α) : (s.report r).errtok = r.errToken := rfl
@[simp] theorem State.report_errslot (s : State) {α : Type} (r : Result α) : (s.report r).errslot = r.errSlot := rfl
@[simp] theorem State.report_inBuf (s : State) {α : Type} (r : Result α) : (s.report r).inBuf = s.inBuf := rfl
@[simp] theorem State.report_outBuf (s : State) {α : Type} (r : Result α) : (s.report r).outBuf = s.outBuf := rfl
@[simp] theorem State.report_rom (s : State) {α : Type} (r : Result α) : (s.report r).rom = s.rom := rfl
@[simp] theorem State.report_cap (s : State) {α : Type} (r : Result α) : (s.report r).cap = s.cap := rfl
@[simp] theorem State.report_turns (s : State) {α : Type} (r : Result α) : (s.report r).turns = s.turns := rfl
@[simp] theorem State.report_answers (s : State) {α : Type} (r : Result α) : (s.report r).answers = s.answers := rfl
@[simp] theorem State.report_draws (s : State) {α : Type} (r : Result α) : (s.report r).draws = s.draws := rfl
@[simp] theorem State.report_offSpec (s : State) {α : Type} (r : Result α) : (s.report r).offSpec = s.offSpec := rfl

@[simp] theorem State.setOut_w (s : State) (bs : List Byte) : (s.setOut bs).w = s.w := rfl
@[simp] theorem State.setOut_t (s : State) (bs : List Byte) : (s.setOut bs).t = s.t := rfl
@[simp] theorem State.setOut_tlen (s : State) (bs : List Byte) : (s.setOut bs).tlen = s.tlen := rfl
@[simp] theorem State.setOut_op (s : State) (bs : List Byte) : (s.setOut bs).op = s.op := rfl
@[simp] theorem State.setOut_seplen (s : State) (bs : List Byte) : (s.setOut bs).seplen = s.seplen := rfl
@[simp] theorem State.setOut_sep (s : State) (bs : List Byte) : (s.setOut bs).sep = s.sep := rfl
@[simp] theorem State.setOut_inlen (s : State) (bs : List Byte) : (s.setOut bs).inlen = s.inlen := rfl
@[simp] theorem State.setOut_outlen (s : State) (bs : List Byte) : (s.setOut bs).outlen = bs.length := rfl
@[simp] theorem State.setOut_busy (s : State) (bs : List Byte) : (s.setOut bs).busy = s.busy := rfl
@[simp] theorem State.setOut_done (s : State) (bs : List Byte) : (s.setOut bs).done = s.done := rfl
@[simp] theorem State.setOut_err (s : State) (bs : List Byte) : (s.setOut bs).err = s.err := rfl
@[simp] theorem State.setOut_errtok (s : State) (bs : List Byte) : (s.setOut bs).errtok = s.errtok := rfl
@[simp] theorem State.setOut_errslot (s : State) (bs : List Byte) : (s.setOut bs).errslot = s.errslot := rfl
@[simp] theorem State.setOut_inBuf (s : State) (bs : List Byte) : (s.setOut bs).inBuf = s.inBuf := rfl
@[simp] theorem State.setOut_outBuf (s : State) (bs : List Byte) : (s.setOut bs).outBuf = Memory.ofBytes 0 bs := rfl
@[simp] theorem State.setOut_rom (s : State) (bs : List Byte) : (s.setOut bs).rom = s.rom := rfl
@[simp] theorem State.setOut_cap (s : State) (bs : List Byte) : (s.setOut bs).cap = s.cap := rfl
@[simp] theorem State.setOut_turns (s : State) (bs : List Byte) : (s.setOut bs).turns = s.turns := rfl
@[simp] theorem State.setOut_answers (s : State) (bs : List Byte) : (s.setOut bs).answers = s.answers := rfl
@[simp] theorem State.setOut_draws (s : State) (bs : List Byte) : (s.setOut bs).draws = s.draws := rfl
@[simp] theorem State.setOut_offSpec (s : State) (bs : List Byte) : (s.setOut bs).offSpec = s.offSpec := rfl

@[simp] theorem State.finishBuffer_w (s : State) (r : Result (List Byte)) : (s.finishBuffer r).w = s.w := rfl
@[simp] theorem State.finishBuffer_t (s : State) (r : Result (List Byte)) : (s.finishBuffer r).t = s.t := rfl
@[simp] theorem State.finishBuffer_tlen (s : State) (r : Result (List Byte)) : (s.finishBuffer r).tlen = s.tlen := rfl
@[simp] theorem State.finishBuffer_op (s : State) (r : Result (List Byte)) : (s.finishBuffer r).op = s.op := rfl
@[simp] theorem State.finishBuffer_seplen (s : State) (r : Result (List Byte)) : (s.finishBuffer r).seplen = s.seplen := rfl
@[simp] theorem State.finishBuffer_sep (s : State) (r : Result (List Byte)) : (s.finishBuffer r).sep = s.sep := rfl
@[simp] theorem State.finishBuffer_inlen (s : State) (r : Result (List Byte)) : (s.finishBuffer r).inlen = s.inlen := rfl
@[simp] theorem State.finishBuffer_outlen (s : State) (r : Result (List Byte)) : (s.finishBuffer r).outlen = (resultBytes r).length := rfl
@[simp] theorem State.finishBuffer_busy (s : State) (r : Result (List Byte)) : (s.finishBuffer r).busy = false := rfl
@[simp] theorem State.finishBuffer_done (s : State) (r : Result (List Byte)) : (s.finishBuffer r).done = true := rfl
@[simp] theorem State.finishBuffer_err (s : State) (r : Result (List Byte)) : (s.finishBuffer r).err = r.errCode := rfl
@[simp] theorem State.finishBuffer_errtok (s : State) (r : Result (List Byte)) : (s.finishBuffer r).errtok = r.errToken := rfl
@[simp] theorem State.finishBuffer_errslot (s : State) (r : Result (List Byte)) : (s.finishBuffer r).errslot = r.errSlot := rfl
@[simp] theorem State.finishBuffer_inBuf (s : State) (r : Result (List Byte)) : (s.finishBuffer r).inBuf = s.inBuf := rfl
@[simp] theorem State.finishBuffer_outBuf (s : State) (r : Result (List Byte)) : (s.finishBuffer r).outBuf = Memory.ofBytes 0 (resultBytes r) := rfl
@[simp] theorem State.finishBuffer_rom (s : State) (r : Result (List Byte)) : (s.finishBuffer r).rom = s.rom := rfl
@[simp] theorem State.finishBuffer_cap (s : State) (r : Result (List Byte)) : (s.finishBuffer r).cap = s.cap := rfl
@[simp] theorem State.finishBuffer_turns (s : State) (r : Result (List Byte)) : (s.finishBuffer r).turns = s.turns := rfl
@[simp] theorem State.finishBuffer_answers (s : State) (r : Result (List Byte)) : (s.finishBuffer r).answers = s.answers := rfl
@[simp] theorem State.finishBuffer_draws (s : State) (r : Result (List Byte)) : (s.finishBuffer r).draws = s.draws := rfl
@[simp] theorem State.finishBuffer_offSpec (s : State) (r : Result (List Byte)) : (s.finishBuffer r).offSpec = s.offSpec := rfl

@[simp] theorem State.completeUnspecified_w (s : State) : (s.completeUnspecified).w = s.w := rfl
@[simp] theorem State.completeUnspecified_t (s : State) : (s.completeUnspecified).t = s.t := rfl
@[simp] theorem State.completeUnspecified_tlen (s : State) : (s.completeUnspecified).tlen = s.tlen := rfl
@[simp] theorem State.completeUnspecified_op (s : State) : (s.completeUnspecified).op = s.op := rfl
@[simp] theorem State.completeUnspecified_seplen (s : State) : (s.completeUnspecified).seplen = s.seplen := rfl
@[simp] theorem State.completeUnspecified_sep (s : State) : (s.completeUnspecified).sep = s.sep := rfl
@[simp] theorem State.completeUnspecified_inlen (s : State) : (s.completeUnspecified).inlen = s.inlen := rfl
@[simp] theorem State.completeUnspecified_outlen (s : State) : (s.completeUnspecified).outlen = Capacity.fit s.cap.outMax (Config.freeValue s.draws) := rfl
@[simp] theorem State.completeUnspecified_busy (s : State) : (s.completeUnspecified).busy = false := rfl
@[simp] theorem State.completeUnspecified_done (s : State) : (s.completeUnspecified).done = true := rfl
@[simp] theorem State.completeUnspecified_err (s : State) : (s.completeUnspecified).err = BitVec.ofNat 2 (Config.freeValue (s.draws + 1)) := rfl
@[simp] theorem State.completeUnspecified_errtok (s : State) : (s.completeUnspecified).errtok = Capacity.fit s.cap.inMax (Config.freeValue (s.draws + 2)) := rfl
@[simp] theorem State.completeUnspecified_errslot (s : State) : (s.completeUnspecified).errslot = BitVec.ofNat 3 (Config.freeValue (s.draws + 3)) := rfl
@[simp] theorem State.completeUnspecified_inBuf (s : State) : (s.completeUnspecified).inBuf = s.inBuf := rfl
@[simp] theorem State.completeUnspecified_outBuf (s : State) : (s.completeUnspecified).outBuf = [] := rfl
@[simp] theorem State.completeUnspecified_rom (s : State) : (s.completeUnspecified).rom = s.rom := rfl
@[simp] theorem State.completeUnspecified_cap (s : State) : (s.completeUnspecified).cap = s.cap := rfl
@[simp] theorem State.completeUnspecified_turns (s : State) : (s.completeUnspecified).turns = s.turns := rfl
@[simp] theorem State.completeUnspecified_answers (s : State) : (s.completeUnspecified).answers = s.answers := rfl
@[simp] theorem State.completeUnspecified_draws (s : State) : (s.completeUnspecified).draws = s.draws + 4 := rfl
@[simp] theorem State.completeUnspecified_offSpec (s : State) : (s.completeUnspecified).offSpec = true := rfl

@[simp] theorem State.answer_w (s : State) (x : HostRead) (v : Nat) : (s.answer x v).w = s.w := rfl
@[simp] theorem State.answer_t (s : State) (x : HostRead) (v : Nat) : (s.answer x v).t = s.t := rfl
@[simp] theorem State.answer_tlen (s : State) (x : HostRead) (v : Nat) : (s.answer x v).tlen = s.tlen := rfl
@[simp] theorem State.answer_op (s : State) (x : HostRead) (v : Nat) : (s.answer x v).op = s.op := rfl
@[simp] theorem State.answer_seplen (s : State) (x : HostRead) (v : Nat) : (s.answer x v).seplen = s.seplen := rfl
@[simp] theorem State.answer_sep (s : State) (x : HostRead) (v : Nat) : (s.answer x v).sep = s.sep := rfl
@[simp] theorem State.answer_inlen (s : State) (x : HostRead) (v : Nat) : (s.answer x v).inlen = s.inlen := rfl
@[simp] theorem State.answer_outlen (s : State) (x : HostRead) (v : Nat) : (s.answer x v).outlen = s.outlen := rfl
@[simp] theorem State.answer_busy (s : State) (x : HostRead) (v : Nat) : (s.answer x v).busy = s.busy := rfl
@[simp] theorem State.answer_done (s : State) (x : HostRead) (v : Nat) : (s.answer x v).done = s.done := rfl
@[simp] theorem State.answer_err (s : State) (x : HostRead) (v : Nat) : (s.answer x v).err = s.err := rfl
@[simp] theorem State.answer_errtok (s : State) (x : HostRead) (v : Nat) : (s.answer x v).errtok = s.errtok := rfl
@[simp] theorem State.answer_errslot (s : State) (x : HostRead) (v : Nat) : (s.answer x v).errslot = s.errslot := rfl
@[simp] theorem State.answer_inBuf (s : State) (x : HostRead) (v : Nat) : (s.answer x v).inBuf = s.inBuf := rfl
@[simp] theorem State.answer_outBuf (s : State) (x : HostRead) (v : Nat) : (s.answer x v).outBuf = s.outBuf := rfl
@[simp] theorem State.answer_rom (s : State) (x : HostRead) (v : Nat) : (s.answer x v).rom = s.rom := rfl
@[simp] theorem State.answer_cap (s : State) (x : HostRead) (v : Nat) : (s.answer x v).cap = s.cap := rfl
@[simp] theorem State.answer_turns (s : State) (x : HostRead) (v : Nat) : (s.answer x v).turns = s.turns := rfl
@[simp] theorem State.answer_answers (s : State) (x : HostRead) (v : Nat) : (s.answer x v).answers = ⟨x, v⟩ :: s.answers := rfl
@[simp] theorem State.answer_draws (s : State) (x : HostRead) (v : Nat) : (s.answer x v).draws = s.draws := rfl
@[simp] theorem State.answer_offSpec (s : State) (x : HostRead) (v : Nat) : (s.answer x v).offSpec = s.offSpec := rfl

@[simp] theorem State.answerFree_w (s : State) (x : HostRead) (f : Nat → Nat) : (s.answerFree x f).w = s.w := rfl
@[simp] theorem State.answerFree_t (s : State) (x : HostRead) (f : Nat → Nat) : (s.answerFree x f).t = s.t := rfl
@[simp] theorem State.answerFree_tlen (s : State) (x : HostRead) (f : Nat → Nat) : (s.answerFree x f).tlen = s.tlen := rfl
@[simp] theorem State.answerFree_op (s : State) (x : HostRead) (f : Nat → Nat) : (s.answerFree x f).op = s.op := rfl
@[simp] theorem State.answerFree_seplen (s : State) (x : HostRead) (f : Nat → Nat) : (s.answerFree x f).seplen = s.seplen := rfl
@[simp] theorem State.answerFree_sep (s : State) (x : HostRead) (f : Nat → Nat) : (s.answerFree x f).sep = s.sep := rfl
@[simp] theorem State.answerFree_inlen (s : State) (x : HostRead) (f : Nat → Nat) : (s.answerFree x f).inlen = s.inlen := rfl
@[simp] theorem State.answerFree_outlen (s : State) (x : HostRead) (f : Nat → Nat) : (s.answerFree x f).outlen = s.outlen := rfl
@[simp] theorem State.answerFree_busy (s : State) (x : HostRead) (f : Nat → Nat) : (s.answerFree x f).busy = s.busy := rfl
@[simp] theorem State.answerFree_done (s : State) (x : HostRead) (f : Nat → Nat) : (s.answerFree x f).done = s.done := rfl
@[simp] theorem State.answerFree_err (s : State) (x : HostRead) (f : Nat → Nat) : (s.answerFree x f).err = s.err := rfl
@[simp] theorem State.answerFree_errtok (s : State) (x : HostRead) (f : Nat → Nat) : (s.answerFree x f).errtok = s.errtok := rfl
@[simp] theorem State.answerFree_errslot (s : State) (x : HostRead) (f : Nat → Nat) : (s.answerFree x f).errslot = s.errslot := rfl
@[simp] theorem State.answerFree_inBuf (s : State) (x : HostRead) (f : Nat → Nat) : (s.answerFree x f).inBuf = s.inBuf := rfl
@[simp] theorem State.answerFree_outBuf (s : State) (x : HostRead) (f : Nat → Nat) : (s.answerFree x f).outBuf = s.outBuf := rfl
@[simp] theorem State.answerFree_rom (s : State) (x : HostRead) (f : Nat → Nat) : (s.answerFree x f).rom = s.rom := rfl
@[simp] theorem State.answerFree_cap (s : State) (x : HostRead) (f : Nat → Nat) : (s.answerFree x f).cap = s.cap := rfl
@[simp] theorem State.answerFree_turns (s : State) (x : HostRead) (f : Nat → Nat) : (s.answerFree x f).turns = s.turns := rfl
@[simp] theorem State.answerFree_answers (s : State) (x : HostRead) (f : Nat → Nat) : (s.answerFree x f).answers = ⟨x, f (Config.freeValue s.draws)⟩ :: s.answers := rfl
@[simp] theorem State.answerFree_draws (s : State) (x : HostRead) (f : Nat → Nat) : (s.answerFree x f).draws = s.draws + 1 := rfl
@[simp] theorem State.answerFree_offSpec (s : State) (x : HostRead) (f : Nat → Nat) : (s.answerFree x f).offSpec = s.offSpec := rfl

@[simp] theorem State.resetEvent_w (s : State) : (s.resetEvent).w = 0#16 := rfl
@[simp] theorem State.resetEvent_t (s : State) : (s.resetEvent).t = 0#40 := rfl
@[simp] theorem State.resetEvent_tlen (s : State) : (s.resetEvent).tlen = 0#3 := rfl
@[simp] theorem State.resetEvent_op (s : State) : (s.resetEvent).op = 0#2 := rfl
@[simp] theorem State.resetEvent_seplen (s : State) : (s.resetEvent).seplen = 1 := rfl
@[simp] theorem State.resetEvent_sep (s : State) : (s.resetEvent).sep = [(0, 0x2D#8)] := rfl
@[simp] theorem State.resetEvent_inlen (s : State) : (s.resetEvent).inlen = 0 := rfl
@[simp] theorem State.resetEvent_outlen (s : State) : (s.resetEvent).outlen = 0 := rfl
@[simp] theorem State.resetEvent_busy (s : State) : (s.resetEvent).busy = false := rfl
@[simp] theorem State.resetEvent_done (s : State) : (s.resetEvent).done = false := rfl
@[simp] theorem State.resetEvent_err (s : State) : (s.resetEvent).err = 0#2 := rfl
@[simp] theorem State.resetEvent_errtok (s : State) : (s.resetEvent).errtok = 0 := rfl
@[simp] theorem State.resetEvent_errslot (s : State) : (s.resetEvent).errslot = 0#3 := rfl
@[simp] theorem State.resetEvent_inBuf (s : State) : (s.resetEvent).inBuf = [] := rfl
@[simp] theorem State.resetEvent_outBuf (s : State) : (s.resetEvent).outBuf = [] := rfl
@[simp] theorem State.resetEvent_rom (s : State) : (s.resetEvent).rom = s.rom := rfl
@[simp] theorem State.resetEvent_cap (s : State) : (s.resetEvent).cap = s.cap := rfl
@[simp] theorem State.resetEvent_turns (s : State) : (s.resetEvent).turns = s.turns := rfl
@[simp] theorem State.resetEvent_answers (s : State) : (s.resetEvent).answers = s.answers := rfl
@[simp] theorem State.resetEvent_draws (s : State) : (s.resetEvent).draws = s.draws := rfl
@[simp] theorem State.resetEvent_offSpec (s : State) : (s.resetEvent).offSpec = false := rfl

end Sys2Proof.Machine
end

