-- ==== Sys2Proof/Laws/Step.lean ====
section
/-! SUPPORT. What each shared operation, each command and a step can do, said once: one inversion lemma each. -/

namespace Sys2Proof

/-! ## Why decoding fails -/

/-- Why a token fails: its length, or the lowest slot whose byte is not in its slot's alphabet. -/
theorem decodeWord_fail_reason {r : Rom} {token : List Byte} {e : Failure} {tok : Nat} {slot : BitVec 3}
    (h : decodeWord r token = .fail e tok slot) :
    (e = .invalidLength ∧ token.length ≠ 5) ∨ (e = .invalidSymbol ∧ lowestBadSlot r token slot.toNat) := by
  unfold decodeWord at h
  split at h
  · simp only [decodeSymbols] at h
    split at h
    · rename_i k hk
      injection h with h1 h2 h3
      subst h1 h2 h3
      refine .inr ⟨rfl, rfl, ?_⟩
      simp only [firstBadSlot, Rom.cinv_invalid, Rom.vinv_invalid] at hk
      repeat' split at hk
      all_goals cases hk
      all_goals
        refine ⟨⟨_, rfl, by simp_all [Rom.memberAt]⟩, fun j c hj hc => ?_⟩
        rcases j with _ | _ | _ | _ | j <;> simp_all [Rom.memberAt] <;> omega
    · cases h
  · rename_i hn
    injection h with h1
    refine .inl ⟨h1.symm, fun hl => ?_⟩
    match token, hl with
    | [c0, c1, c2, c3, c4], _ => exact hn _ _ _ _ _ rfl

/-- A failing list of candidates reports the first that fails, at its index. -/
theorem decodeCandidates_fail_first {r : Rom} {cands : List (List Byte)} :
    ∀ {j : Nat} {e : Failure} {tok : Nat} {slot : BitVec 3}, decodeCandidates r j cands = .fail e tok slot →
      ∃ n cand, tok = j + n ∧ reachesCandidate r cands n cand ∧ decodeWord r cand = .fail e 0 slot := by
  induction cands with
  | nil => intro j e tok slot h; simp [decodeCandidates] at h
  | cons c rest ih =>
    intro j e tok slot h
    simp only [decodeCandidates] at h
    split at h
    · rename_i e' k slot' hw
      simp only [Result.fail.injEq] at h
      obtain ⟨rfl, rfl, rfl⟩ := h
      obtain ⟨rfl, -⟩ := decodeWord_fail hw
      exact ⟨0, c, rfl, ⟨rfl, fun i _ hi => absurd hi (Nat.not_lt_zero i)⟩, hw⟩
    · rename_i w hw
      split at h
      · rename_i e' tok' slot' hr
        simp only [Result.fail.injEq] at h
        obtain ⟨rfl, rfl, rfl⟩ := h
        obtain ⟨n, cand, rfl, ⟨hn, hb⟩, hf⟩ := ih hr
        refine ⟨n + 1, cand, by omega, ⟨hn, fun i x hi hx => ?_⟩, hf⟩
        cases i with
        | zero => cases hx; exact ⟨w, hw⟩
        | succ i => exact hb i x (by omega) hx
      · cases h

end Sys2Proof

namespace Sys2Proof.Machine

/-! ## The host's operations -/

/-- A host write that goes on either was dropped while BUSY, or had its effect. -/
theorem State.hostWrite_cases {s t : State} {x : HostWrite} (h : s.hostWrite x = .next t) :
    x.located s.cap = true ∧ ((s.busy = true ∧ t = s) ∨
      (s.busy = false ∧ x.lengthHeld s.cap = true ∧ t = s.applyWrite x)) := by
  unfold State.hostWrite at h
  split at h
  · cases h
  · rename_i hl
    refine ⟨by simpa using hl, ?_⟩
    split at h
    · rename_i hb
      cases h; exact .inl ⟨hb, rfl⟩
    · rename_i hb
      split at h
      · cases h
      · rename_i hh
        cases h
        exact .inr ⟨by simpa using hb, by simpa using hh, rfl⟩

/-- A host read that goes on adds its answer, and draws a free value where it is unspecified. -/
theorem State.hostRead_cases {s t : State} {x : HostRead} (h : s.hostRead x = .next t) :
    x.located s.cap = true ∧ ((∃ v, s.readable x = some v ∧ t = s.answer x v) ∨
      (s.readable x = none ∧ t = s.answerFree x (x.narrow s.cap))) := by
  unfold State.hostRead at h
  split at h
  · cases h
  · rename_i hl
    refine ⟨by simpa using hl, ?_⟩
    split at h
    · rename_i v hv
      cases h; exact .inl ⟨v, hv, rfl⟩
    · rename_i hv
      cases h; exact .inr ⟨hv, rfl⟩

/-- HostStart always goes on: accepted while idle, ignored while busy. -/
theorem State.hostStart_cases (s : State) :
    (s.busy = true ∧ s.hostStart = s) ∨ (s.busy = false ∧ s.hostStart = s.accept) := by
  unfold State.hostStart
  cases hb : s.busy <;> simp

/-! ## The commands -/

theorem execEncw_eq (s : State) :
    execEncw s = .next ({ s with t := encodeWordModule s.rom s.w, tlen := 5#3 }.complete 0b00#2 0 0#3) := rfl

/-- The module's ports, by the result of the function on the lanes; `err_slot_o` of a decoded token is free. -/
theorem decodeWordModule_cases (r : Rom) (tok : Token) (len : BitVec 3) :
    (len ≠ 5#3 ∧ (decodeWordModule r tok len).err_o = 0b10#2 ∧ (decodeWordModule r tok len).err_slot_o = 0#3) ∨
    (len = 5#3 ∧ ∃ w, decodeWord r (tokenLanes tok) = .ok w ∧
      (decodeWordModule r tok len).word_o = w ∧ (decodeWordModule r tok len).err_o = 0b00#2) ∨
    (len = 5#3 ∧ ∃ slot, decodeWord r (tokenLanes tok) = .fail .invalidSymbol 0 slot ∧ slot.toNat ≤ 4 ∧
      (decodeWordModule r tok len).err_o = 0b11#2 ∧ (decodeWordModule r tok len).err_slot_o = slot) := by
  by_cases hl : len = 5#3
  · right
    cases h : decodeWord r (tokenLanes tok) with
    | ok w => exact .inl ⟨hl, w, rfl, by simp [decodeWordModule, hl, h], by simp [decodeWordModule, hl, h]⟩
    | fail e k slot =>
      right
      obtain ⟨rfl, ⟨rfl, rfl⟩ | ⟨rfl, hs⟩⟩ := decodeWord_fail h
      · exfalso
        simp only [tokenLanes, decodeWord, decodeSymbols] at h
        split at h <;> simp at h
      · exact ⟨hl, slot, rfl, hs, by simp [decodeWordModule, hl, h, Failure.code], by simp [decodeWordModule, hl, h]⟩
  · exact .inl ⟨hl, by simp [decodeWordModule, hl, Failure.code], by simp [decodeWordModule, hl]⟩

/-- DECW always completes: a wrong length, a decoded word, or the lowest bad slot. -/
theorem execDecw_cases (s : State) :
    (s.tlen ≠ 5#3 ∧ execDecw s = .next (s.complete 0b10#2 0 0#3)) ∨
    (s.tlen = 5#3 ∧ ∃ w, decodeWord s.rom (tokenLanes s.t) = .ok w ∧
      execDecw s = .next ({ s with w := w }.complete 0b00#2 0 0#3)) ∨
    (s.tlen = 5#3 ∧ ∃ slot, decodeWord s.rom (tokenLanes s.t) = .fail .invalidSymbol 0 slot ∧ slot.toNat ≤ 4 ∧
      execDecw s = .next (s.complete 0b11#2 0 slot)) := by
  rcases decodeWordModule_cases s.rom s.t s.tlen with ⟨hl, he, hk⟩ | ⟨hl, w, hw, hp, he⟩ | ⟨hl, slot, hw, hs, he, hk⟩
  · exact .inl ⟨hl, by simp [execDecw, he, hk, State.complete]⟩
  · exact .inr (.inl ⟨hl, w, hw, by simp [execDecw, hp, he]⟩)
  · exact .inr (.inr ⟨hl, slot, hw, hs, by simp [execDecw, he, hk, State.complete]⟩)

/-- ENCB rejects an odd length, encodes an even one whose bytes have been written, and faults on any other. -/
theorem execEncb_cases (s : State) :
    (s.inlen % 2 = 1 ∧ execEncb s = .next (s.finishBuffer (.fail .invalidInputLength 0 0#3))) ∨
    (s.inlen % 2 = 0 ∧ ∃ data, s.inBytes = some data ∧ data.length = s.inlen ∧
      execEncb s = .next (s.finishBuffer (.ok (joinTokens s.sepBytes ((wordsOf data).map (encodeWord s.rom)))))) ∨
    (s.inlen % 2 = 0 ∧ s.inBytes = none ∧ execEncb s = .fault .unwrittenInput) := by
  by_cases ho : s.inlen % 2 = 1
  · exact .inl ⟨ho, by simp [execEncb, ho]⟩
  · right
    have he : s.inlen % 2 = 0 := by omega
    cases hd : s.inBytes with
    | none => exact .inr ⟨he, rfl, by simp [execEncb, ho, hd]⟩
    | some data =>
      have hl : data.length = s.inlen := (State.inBytes_eq_some.1 hd).1
      have hb : encodeBuffer s.rom data s.sepBytes = .ok (joinTokens s.sepBytes ((wordsOf data).map (encodeWord s.rom))) :=
        encodeBuffer_eq_ok.2 ⟨by omega, rfl⟩
      exact .inl ⟨he, data, rfl, hl, by simp [execEncb, ho, hd, hb]⟩

/-- DECB completes with unspecified results for the empty separator, decodes a text whose bytes have been written, and
faults on any other. -/
theorem execDecb_cases (s : State) :
    (s.seplen = 0 ∧ execDecb s = .next s.completeUnspecified) ∨
    (s.seplen ≠ 0 ∧ ∃ text, s.inBytes = some text ∧ text.length = s.inlen ∧
      execDecb s = .next (s.finishBuffer (decodeBuffer s.rom text s.sepBytes))) ∨
    (s.seplen ≠ 0 ∧ s.inBytes = none ∧ execDecb s = .fault .unwrittenInput) := by
  by_cases hs : s.seplen = 0
  · exact .inl ⟨hs, by simp [execDecb, hs]⟩
  · right
    cases hd : s.inBytes with
    | none => exact .inr ⟨hs, rfl, by simp [execDecb, hs, hd]⟩
    | some text =>
      exact .inl ⟨hs, text, rfl, (State.inBytes_eq_some.1 hd).1, by simp [execDecb, hs, hd]⟩

/-! ## A step -/

/-- The block's turn: idle, or the completion of the selected command. -/
theorem State.blockTurn_cases (s : State) :
    (s.busy = false ∧ s.blockTurn = .next s) ∨ (s.busy = true ∧ s.blockTurn = exec s.selected s) := by
  unfold State.blockTurn
  cases hb : s.busy <;> simp

/-- A step that goes on is one of: the idle block's turn, a completion, a host write, a host read, a START, a reset. -/
theorem step_cases {s t : State} (h : step s = .next t) :
    ∃ rest, (s.blockNext ∧ rest = s.turns.tail ∧ s.busy = false ∧ t = { s with turns := rest }) ∨
      (s.blockNext ∧ rest = s.turns.tail ∧ s.busy = true ∧ exec s.selected { s with turns := rest } = .next t) ∨
      (∃ x, s.turns = .host (.write x) :: rest ∧ State.hostWrite { s with turns := rest } x = .next t) ∨
      (∃ x, s.turns = .host (.read x) :: rest ∧ State.hostRead { s with turns := rest } x = .next t) ∨
      (s.turns = .host .start :: rest ∧ t = State.hostStart { s with turns := rest }) ∨
      (s.turns = .reset :: rest ∧ t = State.resetEvent { s with turns := rest }) := by
  unfold step at h
  split at h
  · rename_i hn
    have hs : s = { s with turns := s.turns.tail } := by cases s; simp_all
    refine ⟨s.turns.tail, ?_⟩
    rcases s.blockTurn_cases with ⟨hb, he⟩ | ⟨hb, he⟩
    · rw [he] at h; cases h
      exact .inl ⟨.inl hn, rfl, hb, hs⟩
    · rw [he] at h
      exact .inr (.inl ⟨.inl hn, rfl, hb, hs ▸ h⟩)
  · rename_i rest hn
    refine ⟨rest, ?_⟩
    rcases State.blockTurn_cases { s with turns := rest } with ⟨hb, he⟩ | ⟨hb, he⟩
    · rw [he] at h; cases h
      exact .inl ⟨.inr ⟨rest, hn⟩, by simp [hn], hb, rfl⟩
    · rw [he] at h
      exact .inr (.inl ⟨.inr ⟨rest, hn⟩, by simp [hn], hb, h⟩)
  · rename_i x rest hn
    refine ⟨rest, ?_⟩
    cases x with
    | write x => exact .inr (.inr (.inl ⟨x, hn, h⟩))
    | read x => exact .inr (.inr (.inr (.inl ⟨x, hn, h⟩)))
    | start => cases h; exact .inr (.inr (.inr (.inr (.inl ⟨hn, rfl⟩))))
  · rename_i rest hn
    cases h
    exact ⟨rest, .inr (.inr (.inr (.inr (.inr ⟨hn, rfl⟩))))⟩

/-- What holds of every kind of move holds of every step: the idle turn and the dropped write, the completion of each
command, the effective write, the two kinds of read, the accepted START, the reset event. -/
theorem step_relates (P : State → State → Prop)
    (idle : ∀ (s : State) (rest : List Turn), P s { s with turns := rest })
    (command : ∀ (i : Instr) (s t : State) (rest : List Turn), exec i { s with turns := rest } = .next t → P s t)
    (write : ∀ (s : State) (rest : List Turn) (x : HostWrite), x.located s.cap = true → x.lengthHeld s.cap = true →
      s.busy = false → P s (State.applyWrite { s with turns := rest } x))
    (read : ∀ (s : State) (rest : List Turn) (x : HostRead) (v : Nat), P s (State.answer { s with turns := rest } x v))
    (readFree : ∀ (s : State) (rest : List Turn) (x : HostRead) (f : Nat → Nat),
      P s (State.answerFree { s with turns := rest } x f))
    (start : ∀ (s : State) (rest : List Turn), s.busy = false → P s (State.accept { s with turns := rest }))
    (reset : ∀ (s : State) (rest : List Turn), P s (State.resetEvent { s with turns := rest }))
    {s t : State} (h : step s = .next t) : P s t := by
  obtain ⟨rest, h | h | h | h | h | h⟩ := step_cases h
  · obtain ⟨-, -, -, rfl⟩ := h
    exact idle s rest
  · obtain ⟨-, -, -, he⟩ := h
    exact command _ s t rest he
  · obtain ⟨x, -, he⟩ := h
    obtain ⟨hl, ⟨-, rfl⟩ | ⟨hb, hh, rfl⟩⟩ := State.hostWrite_cases he
    · exact idle s rest
    · exact write s rest x hl hh hb
  · obtain ⟨x, -, he⟩ := h
    obtain ⟨-, ⟨v, -, rfl⟩ | ⟨-, rfl⟩⟩ := State.hostRead_cases he
    · exact read s rest x v
    · exact readFree s rest x _
  · obtain ⟨-, rfl⟩ := h
    rcases State.hostStart_cases { s with turns := rest } with ⟨-, he⟩ | ⟨hb, he⟩ <;> rw [he]
    · exact idle s rest
    · exact start s rest hb
  · obtain ⟨-, rfl⟩ := h
    exact reset s rest

/-- The operation is selected by OP alone. -/
theorem State.selected_turns (s : State) (rest : List Turn) : State.selected { s with turns := rest } = s.selected := rfl

/-! ## The refusal of R200 H7 -/

theorem State.blockDue_iff {s : State} : s.blockDue = true ↔ s.blockNext := by
  unfold State.blockDue State.blockNext
  split <;> simp_all

theorem State.selected_eq_decb {s : State} : s.selected = .decb ↔ s.op = 0b11#2 := by
  unfold State.selected
  generalize s.op = op
  revert op
  decide

theorem State.emptySeparatorDue_iff {s : State} :
    s.emptySeparatorDue = true ↔ s.blockNext ∧ s.busy = true ∧ s.op = 0b11#2 ∧ s.seplen = 0 := by
  simp [State.emptySeparatorDue, State.blockDue_iff, State.selected_eq_decb, and_assoc]

/-- dutyStep refuses a DECB with the empty separator, or is step. -/
theorem dutyStep_cases (s : State) :
    (s.emptySeparatorDue = true ∧ dutyStep s = .refused .emptySeparator) ∨
      (s.emptySeparatorDue = false ∧ dutyStep s = step s) := by
  unfold dutyStep
  cases s.emptySeparatorDue <;> simp

end Sys2Proof.Machine
end

