-- ==== Sys2Proof/Machine/Script.lean ====
section
/-! DEFINITION. The line notation of 30 R97 for host programs, as the moves each line stands for, and the two paths of
the command-line collaborator (44 R202). It is a way of writing moves down, not an input of the block. -/

namespace Sys2Proof.Machine

/-- One line of the notation (30 R97). -/
inductive Line where
  /-- WR reg, value. -/
  | wr (x : HostWrite)
  /-- WRSEP: the separator becomes these bytes. -/
  | wrsep (bytes : List Byte)
  /-- WRIN: the bytes to IN[0..], and INLEN to their count. -/
  | wrin (bytes : List Byte)
  /-- START. -/
  | start
  /-- WAIT: DONE is read until it reads 1; `polls` reads fall before the completion, one after it. -/
  | wait (polls : Nat)
  /-- RD reg. -/
  | rd (x : HostRead)
  /-- RDOUT: OUTLEN, then OUT[0..n-1], where n is the OUTLEN the host has just read. -/
  | rdout (n : Nat)
  deriving DecidableEq, Repr

/-- Host writes of consecutive bytes from index `a` on. -/
def writeRun (f : Nat → Byte → HostWrite) : Nat → List Byte → List Turn
  | _, [] => []
  | a, b :: bs => .host (.write (f a b)) :: writeRun f (a + 1) bs

/-- The moves of one line (30 R97). -/
def Line.moves : Line → List Turn
  | .wr x => [.host (.write x)]
  | .wrsep bytes => .host (.write (.seplen bytes.length)) :: writeRun .sep 0 bytes
  | .wrin bytes => writeRun .inByte 0 bytes ++ [.host (.write (.inlen bytes.length))]
  | .start => [.host .start]
  | .wait polls => List.replicate polls (.host (.read .done)) ++ [.block, .host (.read .done)]
  | .rd x => [.host (.read x)]
  | .rdout n => .host (.read .outlen) :: (List.range n).map (fun a => .host (.read (.outByte a)))

/-- The "encode" path: WRIN of the bytes, ENCB, RDOUT (44 R202). -/
def encodePath (data : List Byte) (polls n : Nat) : List Line :=
  [.wrin data, .wr (.op (encodeOp .encb)), .start, .wait polls, .rd .err, .rdout n]

/-- The "decode" path: WRIN of the text, DECB, RDOUT (44 R202). -/
def decodePath (text : List Byte) (polls n : Nat) : List Line :=
  [.wrin text, .wr (.op (encodeOp .decb)), .start, .wait polls, .rd .err, .rdout n]

/-- The moves of a host program, line by line. -/
def scriptMoves (lines : List Line) : List Turn := lines.flatMap Line.moves

end Sys2Proof.Machine
end

