-- ==== Sys2Proof/Tests/Slice0.lean ====
section
/-! SUPPORT. Tests, their results taken from spec/95_test_vectors.md and the rules, and for every obligation that has
hypotheses a concrete state and operands that meet them. -/

namespace Sys2Proof.Tests

open Sys2Proof Sys2Proof.Machine

/-! ## Small states -/

/-- A started command with operation code `op`. -/
def started (op : BitVec 2) : State := { State.reset with op := op, busy := true }

/-- A state with the given input bytes. -/
def loaded (bytes : List Byte) : State :=
  { State.reset with inBuf := Memory.ofBytes 0 bytes, inlen := bytes.length }

/-- A state with the given token register and token length. -/
def tokened (t : Token) (tlen : BitVec 3) : State := { State.reset with w := 0xBEEF#16, t := t, tlen := tlen }

/-- An instance with SEP_MAX = 2, IN_MAX = 4, OUT_MAX = 12. -/
def small : State := { State.reset with cap := .bounded 2 4 12 }

/-- The state after an outcome, where there is one. -/
def after (o : Host.Outcome State Fault Refusal) : Option State :=
  match o with
  | .next t => some t
  | .fault _ => none
  | .refused _ => none

/-- `lusab-babad`, the text of the source's vector S1. -/
def lusabBabad : List Byte :=
  [0x6C#8, 0x75#8, 0x73#8, 0x61#8, 0x62#8, 0x2D#8, 0x62#8, 0x61#8, 0x62#8, 0x61#8, 0x64#8]

/-! ## Well-formedness: one ill-formed term for each check -/

theorem test_standard_rom_legal : Rom.standard.legal = true := by decide

/-- A consonant entry the source fixes, changed: index 0 is `c`. -/
theorem test_rom_refuses_other_consonant :
    (Rom.mk (Rom.standardConsonants.set 0 0x63#8) Rom.standardVowels).consonantsFixed = false := by decide

/-- A vowel entry changed: index 1 is `y`. -/
theorem test_rom_refuses_other_vowel :
    (Rom.mk Rom.standardConsonants (Rom.standardVowels.set 1 0x79#8)).legal = false := by decide

/-- CONS10 = `w`, CONS15 = `e`, CONS10 = `P`: outside the source's constraints (92 D2). -/
theorem test_rom_refuses_open_symbols :
    (Rom.mk (Rom.standardConsonants.set 10 0x77#8) Rom.standardVowels).legal = false ∧
    (Rom.mk (Rom.standardConsonants.set 15 0x65#8) Rom.standardVowels).legal = false ∧
    (Rom.mk (Rom.standardConsonants.set 10 0x50#8) Rom.standardVowels).legal = false := by decide

/-- CONS10 equal to CONS15, CONS10 equal to the vowel `a`: not distinct (30 R84). -/
theorem test_rom_refuses_repeated_symbol :
    (Rom.mk (Rom.standardConsonants.set 10 0x7A#8) Rom.standardVowels).legal = false ∧
    (Rom.mk (Rom.standardConsonants.set 10 0x61#8) Rom.standardVowels).legal = false := by decide

/-- Another legal choice of the open consonants: `x` and `q`. -/
theorem test_rom_other_choice_legal :
    (Rom.mk ((Rom.standardConsonants.set 10 0x78#8).set 15 0x71#8) Rom.standardVowels).legal = true := by decide

/-- SEP_MAX = 0, and OUT_MAX one below the bound of 00 R8 (IN_MAX = 4, SEP_MAX = 2: 5 * 2 + 1 * 2 = 12). -/
theorem test_capacity_checks :
    (Capacity.bounded 0 4 12).legal = false ∧ (Capacity.bounded 2 4 11).legal = false ∧
    (Capacity.bounded 2 4 12).legal = true ∧ (Capacity.bounded 2 1 0).legal = true := by decide

/-! ## Decoding: the codes of 30 R92, written out bit by bit -/

theorem test_decode_encw : decode [0b00000000#8] = .ok (.encw, []) := by decide
theorem test_decode_decw : decode [0b00000001#8] = .ok (.decw, []) := by decide
theorem test_decode_encb : decode [0b00000010#8] = .ok (.encb, []) := by decide
theorem test_decode_decb : decode [0b00000011#8] = .ok (.decb, []) := by decide

theorem test_decode_refuses : decode [0b00000100#8] = .error (.notAnOperationCode 0b00000100#8) ∧
    decode [] = .error .noByte := by decide

theorem test_decode_table_word :
    decodeTableWord 8 0 = some .encw ∧ decodeTableWord 8 1 = some .decw ∧ decodeTableWord 8 2 = some .encb ∧
    decodeTableWord 8 3 = some .decb ∧ decodeTableWord 2 3 = some .decb ∧ decodeTableWord 8 4 = none := by decide

/-- Each row is run as the first instruction after reset, with the result of 95 V2 to V5. -/
theorem test_first_instruction_after_reset :
    ((after (step (State.reset.withFetchWord 8 0))).map fun t => (t.t, t.tlen, t.done)) = some (0x6261626162#40, 5#3, true) ∧
    ((after (step (State.reset.withFetchWord 8 1))).map fun t => (t.err, t.w, t.done)) = some (0b10#2, 0#16, true) ∧
    ((after (step (State.reset.withFetchWord 8 2))).map fun t => (t.err, t.outlen, t.done)) = some (0b00#2, 0, true) ∧
    ((after (step (State.reset.withFetchWord 8 3))).map fun t => (t.err, t.outlen, t.done)) = some (0b10#2, 0, true) := by
  decide

/-! ## The commands, by the vectors of 95 -/

/-- 95 2.1: W = 0x1234 gives `damuh`; C1 straddles the byte boundary. -/
theorem test_encw_damuh :
    ((after (exec .encw { State.reset with w := 0x1234#16 })).map fun t => (t.t, t.tlen, t.w))
      = some (0x64616D7568#40, 5#3, 0x1234#16) := by decide

/-- 95 2.1: W = 0xFC00 gives `zubab`. -/
theorem test_encw_zubab :
    ((after (exec .encw { State.reset with w := 0xFC00#16 })).map State.t) = some 0x7A75626162#40 := by decide

/-- 95 S5: `sinid` decodes to 0xC651. -/
theorem test_decw_sinid :
    ((after (exec .decw (tokened 0x73696E6964#40 5#3))).map fun t => (t.w, t.err, t.errslot))
      = some (0xC651#16, 0b00#2, 0#3) := by decide

/-- 95 2.2: `lusaB` fails at slot 4 and leaves W; with TLEN = 6 the length decides. -/
theorem test_decw_failures :
    ((after (exec .decw (tokened 0x6C75736142#40 5#3))).map fun t => (t.w, t.err, t.errslot))
      = some (0xBEEF#16, 0b11#2, 4#3) ∧
    ((after (exec .decw (tokened 0x6C75736142#40 6#3))).map fun t => (t.w, t.err, t.errslot))
      = some (0xBEEF#16, 0b10#2, 0#3) := by decide

/-- 95 S1: 7F 00 00 01 encodes to `lusab-babad`. -/
theorem test_encb_lusab_babad :
    ((after (exec .encb (loaded [0x7F#8, 0x00#8, 0x00#8, 0x01#8]))).map fun t => (t.outlen, t.outBuf.map Prod.snd, t.err))
      = some (11, lusabBabad, 0b00#2) := by decide

/-- 95 S7: three bytes are InvalidInputLength. -/
theorem test_encb_odd :
    ((after (exec .encb (loaded [0x01#8, 0x02#8, 0x03#8]))).map fun t => (t.outlen, t.outBuf, t.err))
      = some (0, [], 0b01#2) := by decide

/-- 95 2.4: `lusab-babad` decodes to 7F 00 00 01. -/
theorem test_decb_lusab_babad :
    ((after (exec .decb (loaded lusabBabad))).map fun t => (t.outlen, t.outBuf.map Prod.snd, t.err))
      = some (4, [0x7F#8, 0x00#8, 0x00#8, 0x01#8], 0b00#2) := by decide

/-- 95 2.4: `lusab-bebad` fails at candidate 1, slot 1. -/
theorem test_decb_bad_vowel :
    ((after (exec .decb (loaded (lusabBabad.set 7 0x65#8)))).map fun t => (t.err, t.errtok, t.errslot, t.outlen))
      = some (0b11#2, 1, 1#3, 0) := by decide

/-- 95 2.4: the candidates of `bababbbabab` split at `b`, and of `:::` split at `::`. -/
theorem test_split :
    splitText [0x62#8] [0x62#8, 0x61#8, 0x62#8, 0x61#8, 0x62#8, 0x62#8, 0x62#8, 0x61#8, 0x62#8, 0x61#8, 0x62#8]
      = [[], [0x61#8], [0x61#8], [], [], [0x61#8], [0x61#8], []] ∧
    splitText [0x3A#8, 0x3A#8] [0x3A#8, 0x3A#8, 0x3A#8] = [[], [0x3A#8]] := by decide

/-! ## The protocol, by 95 2.5 -/

/-- V6: a write while BUSY is dropped. -/
theorem test_busy_write_dropped :
    ((after (step { started 0#2 with w := 0x1234#16, turns := [.host (.write (.w 0xFFFF#16))] })).map State.w)
      = some 0x1234#16 := by decide

/-- V10: a reset while BUSY leaves no DONE. -/
theorem test_reset_while_busy :
    ((after (step { started 0#2 with turns := [.reset] })).map fun t => (t.busy, t.done)) = some (false, false) := by
  decide

/-- 30 R97: WRIN of two bytes is two byte writes and the length. -/
theorem test_script_wrin :
    Line.moves (.wrin [0x7F#8, 0x00#8])
      = [.host (.write (.inByte 0 0x7F#8)), .host (.write (.inByte 1 0x00#8)), .host (.write (.inlen 2))] := by decide

/-- Writing 0x00 to SEP[0] removes its entry, and it reads as 0x00. -/
theorem test_sep_canonical :
    Memory.write .sep [(0, 0x2D#8)] 0 0x00#8 = [] ∧ State.sepByte { State.reset with sep := [] } 0 = 0x00#8 := by decide

/-! ## Hypotheses met: one witness for each obligation that has them -/

theorem witness_ResetEndsACommandWithoutCompletion :
    { started 0#2 with turns := [.reset] }.turns = .reset :: [] ∧
    (∃ t, step { started 0#2 with turns := [.reset] } = .next t ∧ (started 0#2).busy = true ∧ t.busy = false) ∧
    (∃ t, step (started 0#2) = .next t ∧ (started 0#2).busy = true ∧ t.busy = false) :=
  ⟨rfl, ⟨_, rfl, rfl, rfl⟩, ⟨_, rfl, rfl, rfl⟩⟩

theorem witness_AcceptedStartOnlySetsBusyAndClearsDone :
    ({ State.reset with turns := [.host .start] }.turns = .host .start :: [] ∧ State.reset.busy = false) ∧
    ∃ t, State.hostNext { started 0#2 with turns := [.host (.write (.op 1#2))] } (.write (.op 1#2)) ∧
      step { started 0#2 with turns := [.host (.write (.op 1#2))] } = .next t :=
  ⟨⟨rfl, rfl⟩, ⟨_, ⟨_, rfl⟩, rfl⟩⟩

theorem witness_StartWhileBusyIsIgnored :
    { started 2#2 with turns := [.host .start] }.turns = .host .start :: [] ∧ (started 2#2).busy = true ∧
    ∃ t, State.hostNext { started 2#2 with turns := [.host .start] } .start ∧
      step { started 2#2 with turns := [.host .start] } = .next t :=
  ⟨rfl, rfl, ⟨_, ⟨_, rfl⟩, rfl⟩⟩

theorem witness_CompletionClearsBusyAndSetsDone : ∃ t, exec .decw (started 1#2) = .next t := ⟨_, rfl⟩

theorem witness_StepRunsTheDecodedInstruction :
    (started 3#2).busy = true ∧ decode ((started 3#2).op.zeroExtend 8 :: []) = .ok (.decb, []) ∧
    (started 3#2).turns = [] ∧ { started 3#2 with turns := [.block, .reset] }.turns = .block :: [.reset] := by decide

theorem witness_IdleBlockDoesNothing :
    State.reset.busy = false ∧ State.reset.blockNext ∧ State.blockNext { State.reset with turns := [.block] } :=
  ⟨rfl, .inl rfl, .inr ⟨[], rfl⟩⟩

theorem witness_EveryCommandCompletes :
    let s := { loaded [0x7F#8, 0x00#8] with op := 2#2, busy := true }
    s.busy = true ∧ s.blockNext ∧ s.inputWritten := by
  refine ⟨rfl, .inl rfl, fun a ha => ?_⟩
  have h : a < 2 := ha
  interval_cases a <;> decide

theorem witness_HostCannotDisturbARunningCommand :
    let ops : List HostOp := [.write (.inlen 5), .read .w, .start]
    let s := { small with busy := true, op := 3#2, turns := ops.map Turn.host }
    s.busy = true ∧ s.turns = ops.map Turn.host ∧ (∀ x, HostOp.write x ∈ ops → x.located s.cap = true) ∧
      (∀ x, HostOp.read x ∈ ops → x.located s.cap = true) := by
  refine ⟨rfl, rfl, fun x hx => ?_, fun x hx => ?_⟩ <;> simp at hx <;> subst hx <;> rfl

theorem witness_WritesWhileBusyAreDropped :
    { small with busy := true, turns := [.host (.write (.inByte 3 1#8))] }.turns = .host (.write (.inByte 3 1#8)) :: [] ∧
    HostWrite.located small.cap (.inByte 3 1#8) = true ∧ HostWrite.located small.cap (.sep 1 1#8) = true := by decide

theorem witness_IdleRegisterWritesTakeEffect :
    small.busy = false ∧
    { small with turns := [.host (.write (.w 7#16))] }.turns = .host (.write (.w 7#16)) :: [] ∧
    { small with turns := [.host (.write (.t 7#40))] }.turns = .host (.write (.t 7#40)) :: [] ∧
    { small with turns := [.host (.write (.tlen 7#3))] }.turns = .host (.write (.tlen 7#3)) :: [] ∧
    { small with turns := [.host (.write (.op 3#2))] }.turns = .host (.write (.op 3#2)) :: [] ∧
    (Capacity.holds small.cap.sepMax 2 = true ∧
      { small with turns := [.host (.write (.seplen 2))] }.turns = .host (.write (.seplen 2)) :: []) ∧
    (Capacity.holds small.cap.inMax 4 = true ∧
      { small with turns := [.host (.write (.inlen 4))] }.turns = .host (.write (.inlen 4)) :: []) := by decide

theorem witness_IdleByteWritesReachOneByte :
    (small.busy = false ∧ Capacity.hasIndex small.cap.inMax 3 = true ∧
      { small with turns := [.host (.write (.inByte 3 9#8))] }.turns = .host (.write (.inByte 3 9#8)) :: []) ∧
    (Capacity.hasIndex small.cap.sepMax 1 = true ∧
      { small with turns := [.host (.write (.sep 1 0#8))] }.turns = .host (.write (.sep 1 0#8)) :: []) := by decide

theorem witness_ReadOnlyFieldsIgnoreHostWrites :
    { small with turns := [.host (.write (.outByte 12 1#8))] }.turns = .host (.write (.outByte 12 1#8)) :: [] ∧
    (∃ a b, HostWrite.outByte 12 1#8 = .outByte a b) ∧ (∃ n, HostWrite.outlen 3 = .outlen n) ∧
    (∃ v, HostWrite.busy true = .busy v) ∧ (∃ v, HostWrite.done true = .done v) ∧ (∃ v, HostWrite.err 1#2 = .err v) ∧
    (∃ n, HostWrite.errtok 3 = .errtok n) ∧ ∃ v, HostWrite.errslot 5#3 = .errslot v :=
  ⟨rfl, ⟨_, _, rfl⟩, ⟨_, rfl⟩, ⟨_, rfl⟩, ⟨_, rfl⟩, ⟨_, rfl⟩, ⟨_, rfl⟩, ⟨_, rfl⟩⟩

/-- The last index of each space, and a register; `small` after ENCB would have OUTLEN = 12. -/
theorem witness_IdleReadsReturnTheRegister :
    small.busy = false ∧ { small with turns := [.host (.read .seplen)] }.turns = .host (.read .seplen) :: [] ∧
    (Capacity.hasIndex small.cap.sepMax 1 = true) ∧
    (∃ b, Capacity.hasIndex small.cap.inMax 3 = true ∧ State.inByte { small with inBuf := [(3, 8#8)] } 3 = some b) ∧
    (∃ b, Capacity.hasIndex small.cap.outMax 11 = true ∧ 11 < { small with outlen := 12 }.outlen ∧
      State.outByte { small with outBuf := [(11, 8#8)] } 11 = some b) :=
  ⟨rfl, rfl, rfl, ⟨_, rfl, rfl⟩, ⟨_, rfl, by decide, rfl⟩⟩

theorem witness_BusyAndDoneAreReadableAtAnyTime :
    { started 0#2 with turns := [.host (.read .busy)] }.turns = .host (.read .busy) :: [] ∧
    { started 0#2 with turns := [.host (.read .done)] }.turns = .host (.read .done) :: [] := by decide

theorem witness_UnspecifiedReadsAreFreeDraws :
    (HostRead.located (started 0#2).cap .w = true ∧
      { started 0#2 with turns := [.host (.read .w)] }.turns = .host (.read .w) :: [] ∧
      (started 0#2).busy = true ∧ HostRead.w ≠ .busy ∧ HostRead.w ≠ .done) ∧
    (HostRead.located small.cap (.outByte 0) = true ∧ HostRead.located small.cap (.outByte 11) = true ∧ small.outlen ≤ 0 ∧
      { small with turns := [.host (.read (.outByte 0))] }.turns = .host (.read (.outByte 0)) :: []) ∧
    (HostRead.located small.cap (.inByte 3) = true ∧ small.inByte 3 = none ∧ small.busy = false ∧
      { small with turns := [.host (.read (.inByte 3))] }.turns = .host (.read (.inByte 3)) :: []) := by decide

theorem witness_ReadsAreHarmlessAndCommandsIdempotent :
    (∃ t, State.hostNext { State.reset with turns := [.host (.read .w)] } (.read .w) ∧
      step { State.reset with turns := [.host (.read .w)] } = .next t) ∧
    ¬ emptySeparator .decb State.reset ∧ (∃ t, exec .decb State.reset = .next t) ∧
    ¬ emptySeparator .encw State.reset ∧ (∃ t, exec .encw State.reset = .next t) ∧
    ¬ emptySeparator .encb State.reset ∧ (∃ t, exec .encb State.reset = .next t) ∧
    ¬ emptySeparator .decw State.reset ∧ (∃ t, exec .decw State.reset = .next t) :=
  ⟨⟨_, ⟨_, rfl⟩, rfl⟩, by simp [emptySeparator, State.reset], ⟨_, rfl⟩, by simp [emptySeparator], ⟨_, rfl⟩,
    by simp [emptySeparator], ⟨_, rfl⟩, by simp [emptySeparator], ⟨_, rfl⟩⟩

theorem witness_BreachesOfTheCapacitiesStop :
    small.busy = false ∧ Capacity.holds small.cap.sepMax 3 = false ∧ Capacity.holds small.cap.inMax 5 = false ∧
    Capacity.hasIndex small.cap.inMax 4 = false ∧ Capacity.hasIndex small.cap.outMax 12 = false ∧
    { small with turns := [.host (.write (.seplen 3))] }.turns = .host (.write (.seplen 3)) :: [] ∧
    { small with turns := [.host (.write (.inlen 5))] }.turns = .host (.write (.inlen 5)) :: [] ∧
    { small with turns := [.host (.write (.inByte 4 0#8))] }.turns = .host (.write (.inByte 4 0#8)) :: [] ∧
    { small with turns := [.host (.read (.inByte 4))] }.turns = .host (.read (.inByte 4)) :: [] ∧
    Capacity.hasIndex small.cap.sepMax 2 = false ∧
    { small with turns := [.host (.write (.sep 2 0#8))] }.turns = .host (.write (.sep 2 0#8)) :: [] ∧
    { small with turns := [.host (.read (.sep 2))] }.turns = .host (.read (.sep 2)) :: [] ∧
    { small with turns := [.host (.read (.outByte 12))] }.turns = .host (.read (.outByte 12)) :: [] := by decide

/-- TLEN = 4 and 6; `lusaB` with its bad lane at slot 4 and `wusab` at slot 0; `zuzuz`, every index at its maximum. -/
theorem witness_DecwFollowsItsPseudocode :
    (tokened 0#40 4#3).tlen ≠ 5#3 ∧ (tokened 0#40 6#3).tlen ≠ 5#3 ∧
    ((∀ j c, j < 4 → (tokenLanes (tokened 0x6C75736142#40 5#3).t)[j]? = some c → Rom.standard.memberAt j c) ∧
      ∀ c, (tokenLanes (tokened 0x6C75736142#40 5#3).t)[4]? = some c → ¬ Rom.standard.memberAt 4 c) ∧
    ((∀ j c, j < 0 → (tokenLanes (tokened 0x7775736162#40 5#3).t)[j]? = some c → Rom.standard.memberAt j c) ∧
      ∀ c, (tokenLanes (tokened 0x7775736162#40 5#3).t)[0]? = some c → ¬ Rom.standard.memberAt 0 c) ∧
    ((tokened 0x7A757A757A#40 5#3).rom.legal = true ∧ (tokened 0x7A757A757A#40 5#3).tlen = 5#3 ∧
      (tokened 0x7A757A757A#40 5#3).t = tokenOfIndices Rom.standard 15#4 3#2 15#4 3#2 15#4) := by
  refine ⟨by decide, by decide, ⟨fun j c hj hc => ?_, fun c hc => ?_⟩, ⟨fun j c hj _ => absurd hj (by omega), fun c hc => ?_⟩,
    by decide, rfl, by decide⟩
  · interval_cases j <;> · cases hc; simp only [Rom.memberAt]; decide
  · cases hc; simp only [Rom.memberAt]; decide
  · cases hc; simp only [Rom.memberAt]; decide

/-- The hypotheses of the module's clauses are those of the command's, on the same tokens. -/
theorem witness_DecodeModuleChecksLengthThenSymbols :
    (7#3 : BitVec 3) ≠ 5#3 ∧ Rom.standard.legal = true ∧
    (∀ c, (tokenLanes 0x6265626162#40)[1]? = some c → ¬ Rom.standard.memberAt 1 c) ∧
    (∀ j c, j < 1 → (tokenLanes 0x6265626162#40)[j]? = some c → Rom.standard.memberAt j c) := by
  refine ⟨by decide, by decide, fun c hc => ?_, fun j c hj hc => ?_⟩
  · cases hc; simp only [Rom.memberAt]; decide
  · interval_cases j; cases hc; simp only [Rom.memberAt]; decide

/-- Between the two commands W, and IN with it, has been overwritten (95 P3). -/
theorem witness_WordRoundTrip :
    let s := { State.reset with w := 0x1234#16 }
    let u := { tokened 0x64616D7568#40 5#3 with inBuf := [(0, 1#8)] }
    s.rom.legal = true ∧ u.w ≠ s.w ∧ u.inBuf ≠ s.inBuf ∧
      ∃ t, exec .encw s = .next t ∧ u.t = t.t ∧ u.tlen = t.tlen ∧ u.rom = t.rom :=
  ⟨by decide, by decide, by decide, _, rfl, by decide, rfl, rfl⟩

theorem witness_TokenRoundTrip :
    decodeWord Rom.standard [0x73#8, 0x69#8, 0x6E#8, 0x69#8, 0x64#8] = .ok 0xC651#16 := by decide

/-- For EveryValidTokenIsTheTokenOfOneWord and InverseLookupsInvertTheRoms. -/
theorem witness_legalRom : Rom.standard.legal = true := by decide

theorem witness_EncbFollowsItsPseudocode :
    (loaded [0x01#8]).inlen % 2 = 1 ∧ (loaded [0x7F#8, 0x00#8, 0x00#8, 0x01#8]).inlen % 2 = 0 ∧
    (loaded [0x7F#8, 0x00#8, 0x00#8, 0x01#8]).inputIs [0x7F#8, 0x00#8, 0x00#8, 0x01#8] ∧
    (loaded []).inputIs [] := by
  refine ⟨by decide, by decide, ⟨rfl, fun a ha => ?_⟩, ⟨rfl, fun a ha => ?_⟩⟩
  · have h : a < 4 := ha
    interval_cases a <;> decide
  · exact absurd ha (Nat.not_lt_zero a)

theorem witness_InvalidInputLengthExactlyForOddEncb :
    (∃ t, exec .encb (loaded [0x01#8]) = .next t ∧ t.err = 0b01#2) ∧ (∃ t, exec .encb (loaded []) = .next t) ∧
    (Instr.decb ≠ .encb ∧ ¬ emptySeparator .decb (loaded []) ∧ ∃ t, exec .decb (loaded []) = .next t) :=
  ⟨⟨_, rfl, rfl⟩, ⟨_, rfl⟩, by decide, by simp [emptySeparator, loaded, State.reset], ⟨_, rfl⟩⟩

theorem witness_EncodedLength :
    [0x7F#8, 0x00#8].length = 2 * 1 ∧
    encodeBuffer Rom.standard [0x7F#8, 0x00#8] [0x2D#8] = .ok [0x6C#8, 0x75#8, 0x73#8, 0x61#8, 0x62#8] ∧
    (loaded [0x7F#8, 0x00#8]).inlen = 2 * 1 ∧ ∃ t, exec .encb (loaded [0x7F#8, 0x00#8]) = .next t :=
  ⟨rfl, by decide, rfl, ⟨_, rfl⟩⟩

theorem witness_EncbOfNothingIsTheEmptyText : State.reset.inlen = 0 := rfl

theorem witness_UnwrittenInputIsAFault :
    1 < { loaded [0x7F#8] with inlen := 2 }.inlen ∧ State.inByte { loaded [0x7F#8] with inlen := 2 } 1 = none ∧
    { loaded [0x7F#8] with inlen := 2 }.inlen % 2 = 0 ∧ 1 ≤ { loaded [0x7F#8] with inlen := 2 }.seplen := by decide

theorem witness_SplitFollowsItsPseudocode :
    ([0x2D#8] : List Byte) ≠ [] ∧ ¬ [0x2D#8] <+: [0x6C#8, 0x2D#8] ∧ splitText [0x2D#8] [0x2D#8] = [] :: [[]] := by decide

theorem witness_DecbLaysDownTheWords :
    1 ≤ (loaded lusabBabad).seplen ∧ (loaded lusabBabad).inputIs lusabBabad ∧
    (splitText (loaded lusabBabad).sepBytes lusabBabad).map (decodeWord (loaded lusabBabad).rom)
      = [0x7F00#16, 0x0001#16].map Result.ok := by
  refine ⟨by decide, ⟨rfl, fun a ha => ?_⟩, by decide⟩
  have h : a < 11 := ha
  interval_cases a <;> decide

/-- `lusab-`: candidate 0 decodes, candidate 1 is empty. -/
theorem witness_DecbReportsTheFirstFailure :
    let text : List Byte := [0x6C#8, 0x75#8, 0x73#8, 0x61#8, 0x62#8, 0x2D#8]
    1 ≤ (loaded text).seplen ∧ (loaded text).inputIs text ∧ (splitText (loaded text).sepBytes text)[1]? = some [] ∧
    decodeWord (loaded text).rom [] = .fail .invalidLength 0 0#3 ∧
    ∀ i c, i < 1 → (splitText (loaded text).sepBytes text)[i]? = some c → ∃ w, decodeWord (loaded text).rom c = .ok w := by
  refine ⟨by decide, ⟨rfl, fun a ha => ?_⟩, by decide, by decide, fun i c hi hc => ?_⟩
  · have h : a < 6 := ha
    interval_cases a <;> decide
  · interval_cases i
    cases hc
    exact ⟨0x7F00#16, by decide⟩

theorem witness_DecbOfTheEmptyTextFails : 1 ≤ State.reset.seplen ∧ State.reset.inlen = 0 := by decide

theorem witness_DecodedLength :
    ([0x2D#8] : List Byte) ≠ [] ∧
    decodeBuffer Rom.standard lusabBabad [0x2D#8] = .ok [0x7F#8, 0x00#8, 0x00#8, 0x01#8] := by decide

theorem witness_StraySeparatorsFail : ([0x3A#8, 0x3A#8] : List Byte) ≠ [] := by decide

theorem witness_DecbWithEmptySeparatorCompletes : { State.reset with seplen := 0 }.seplen = 0 := rfl

theorem witness_BufferRoundTrip :
    Rom.standard.legal = true ∧ [0x00#8, 0x00#8].length % 2 = 0 ∧ 2 ≤ [0x00#8, 0x00#8].length ∧
    ([0x2D#8] : List Byte) ≠ [] ∧ separatorForeign Rom.standard [0x2D#8] := by
  refine ⟨by decide, by decide, by decide, by decide, fun b hb => ?_⟩
  simp only [List.mem_singleton] at hb
  subst hb
  decide

theorem witness_BufferRoundTripInCommands :
    let s := loaded [0x7F#8, 0x00#8]
    s.rom.legal = true ∧ s.inputIs [0x7F#8, 0x00#8] ∧ s.inlen % 2 = 0 ∧ 2 ≤ s.inlen ∧ 1 ≤ s.seplen ∧
      separatorForeign s.rom s.sepBytes ∧ ∃ t, exec .encb s = .next t := by
  refine ⟨by decide, ⟨rfl, fun a ha => ?_⟩, by decide, by decide, by decide, ?_, ⟨_, rfl⟩⟩
  · have h : a < 2 := ha
    interval_cases a <;> decide
  · unfold separatorForeign; decide

theorem witness_CommandsLeaveTheRestAlone :
    (∃ t, exec .decw (tokened 0#40 4#3) = .next t ∧ t.err ≠ 0b00#2) ∧ isWordCommand .encw ∧ isWordCommand .decw ∧
    (∃ t, exec .encw State.reset = .next t) ∧ (∃ t, exec .encb State.reset = .next t) ∧
    ∃ t, exec .decb State.reset = .next t :=
  ⟨⟨_, rfl, by decide⟩, .inl rfl, .inr rfl, ⟨_, rfl⟩, ⟨_, rfl⟩, ⟨_, rfl⟩⟩

theorem witness_FailedCommandsLeaveNoResult :
    (∃ t, exec .decw (tokened 0#40 4#3) = .next t ∧ t.err ≠ 0b00#2 ∧ ¬ emptySeparator .decw (tokened 0#40 4#3)) ∧
    (∃ t, exec .encb (loaded [0x01#8]) = .next t ∧ t.err ≠ 0b00#2 ∧ ¬ emptySeparator .encb (loaded [0x01#8]) ∧
      ¬ isWordCommand .encb) ∧
    ∃ t, exec .decb State.reset = .next t ∧ t.err ≠ 0b00#2 ∧ ¬ emptySeparator .decb State.reset ∧
      ¬ isWordCommand .decb :=
  ⟨⟨_, rfl, by decide, by simp [emptySeparator]⟩, ⟨_, rfl, by decide, by simp [emptySeparator], by simp [isWordCommand]⟩,
    ⟨_, rfl, by decide, by simp [emptySeparator, State.reset], by simp [isWordCommand]⟩⟩

/-- Each of the four codes is reached, and the last two by each of DECW and DECB; `lusab-bebad` records candidate 1,
slot 1 (95 2.4). -/
theorem witness_StatusRecordsOfEachCode :
    (∃ t, exec .encw State.reset = .next t ∧ t.err = 0b00#2) ∧
    (∃ t, exec .encb (loaded [0x01#8]) = .next t ∧ t.err = 0b01#2) ∧
    (∃ t, exec .decb (loaded []) = .next t ∧ t.err = 0b10#2 ∧ ¬ emptySeparator .decb (loaded [])) ∧
    (∃ t, exec .decw (tokened 0#40 6#3) = .next t ∧ t.err = 0b10#2) ∧
    (∃ t, exec .decw (tokened 0x6C75736142#40 5#3) = .next t ∧ t.err = 0b11#2) ∧
    ∃ t, exec .decb (loaded (lusabBabad.set 7 0x65#8)) = .next t ∧ t.err = 0b11#2 ∧ t.errtok = 1 ∧ t.errslot = 1#3 ∧
      ¬ emptySeparator .decb (loaded (lusabBabad.set 7 0x65#8)) :=
  ⟨⟨_, rfl, rfl⟩, ⟨_, rfl, rfl⟩, ⟨_, rfl, rfl, by simp [emptySeparator, loaded, State.reset]⟩, ⟨_, rfl, by decide⟩,
    ⟨_, rfl, by decide⟩, ⟨_, rfl, by decide, by decide, by decide, by simp [emptySeparator, loaded, State.reset]⟩⟩

theorem witness_ResultsDependOnOperandsAlone :
    ¬ emptySeparator .decb State.reset ∧ sameOperands .decb State.reset { State.reset with w := 7#16, tlen := 1#3 } ∧
    (∃ t, exec .decb State.reset = .next t) ∧
    sameOperands .encw State.reset { State.reset with t := 1#40, inlen := 3 } ∧
    (∃ t, exec .encw State.reset = .next t) :=
  ⟨by simp [emptySeparator, State.reset], ⟨rfl, rfl, fun _ _ => rfl, rfl, fun _ _ => rfl⟩, ⟨_, rfl⟩, ⟨rfl, rfl⟩, ⟨_, rfl⟩⟩

theorem witness_RomAndCapacitiesNeverChange : ∃ t, step State.reset = .next t := ⟨_, rfl⟩

/-- A step with each register or field changed: ENCW (T, TLEN), DECW (W), ENCB (OUTLEN, OUT), a failed DECB (the status
fields), and the host writes of OP, SEPLEN, SEP, INLEN and IN. -/
theorem witness_OnlyTheNamedAgentsWriteEachRegister :
    ((after (step { started 0#2 with w := 0x1234#16 })).map fun t => (t.t != 0#40, t.tlen != 0#3)) = some (true, true) ∧
    ((after (step { tokened 0x73696E6964#40 5#3 with op := 1#2, busy := true })).map fun t => t.w != 0xBEEF#16) = some true ∧
    ((after (step { loaded [0x7F#8, 0x00#8] with op := 2#2, busy := true })).map fun t => (t.outlen != 0, t.outBuf != []))
      = some (true, true) ∧
    ((after (step { loaded (lusabBabad.set 7 0x65#8) with op := 3#2, busy := true })).map fun t =>
      (t.err != 0#2, t.errtok != 0, t.errslot != 0#3)) = some (true, true, true) ∧
    ((after (step { small with turns := [.host (.write (.op 3#2))] })).map fun t => t.op != 0#2) = some true ∧
    ((after (step { small with turns := [.host (.write (.seplen 2))] })).map fun t => t.seplen != 1) = some true ∧
    ((after (step { small with turns := [.host (.write (.sep 1 9#8))] })).map fun t => t.sep != small.sep) = some true ∧
    ((after (step { small with turns := [.host (.write (.inlen 4))] })).map fun t => t.inlen != 0) = some true ∧
    ((after (step { small with turns := [.host (.write (.inByte 3 9#8))] })).map fun t => t.inBuf != []) = some true ∧
    ¬ (started 0#2).resetNext := by
  refine ⟨by decide, by decide, by decide, by decide, by decide, by decide, by decide, by decide, by decide, ?_⟩
  rintro ⟨_, h⟩
  cases h

/-- A write of SEPLEN at its capacity, and a started ENCB whose two bytes have been written. -/
theorem witness_OnlyABrokenDutyStopsTheMachine :
    (State.inputWritten { small with turns := [.host (.write (.seplen 2))] } ∧
      HostWrite.located small.cap (.seplen 2) = true ∧ HostWrite.lengthHeld small.cap (.seplen 2) = true) ∧
    (State.inputWritten { loaded [0x7F#8, 0x00#8] with op := 2#2, busy := true } ∧
      (∀ x, ¬ (loaded [0x7F#8, 0x00#8]).hostNext x)) := by
  refine ⟨⟨fun a ha => absurd ha (Nat.not_lt_zero a), rfl, rfl⟩, fun a ha => ?_, ?_⟩
  · have h : a < 2 := ha
    interval_cases a <;> decide
  · rintro x ⟨_, h⟩
    cases h

/-- For StepsKeepMemoryCanonical, StepsKeepBusyAndDoneExclusive, StepsKeepTheFailureRecord, StepsKeepOutExact and
StepsKeepTheCapacities: a started ENCB. -/
theorem witness_invariantSteps :
    (started 2#2).memWf ∧ (started 2#2).HandshakeInv ∧ (started 2#2).FailureInv ∧ (started 2#2).OutInv ∧
    (started 2#2).CapacityInv ∧ (∃ t, step (started 2#2) = .next t) := by
  refine ⟨by decide, by simp [State.HandshakeInv, started, State.reset],
    fun _ => ⟨by decide, fun _ => rfl, fun _ _ => rfl⟩, ⟨fun _ _ => rfl, fun _ a ha => absurd ha (Nat.not_lt_zero a)⟩,
    ⟨rfl, rfl, rfl, rfl, rfl, fun _ _ => rfl, fun _ _ => rfl, fun _ _ => rfl⟩, ⟨_, rfl⟩⟩

/-- The capacities' invariant is met by a bounded instance at its limits too. -/
theorem witness_CapacityInv_bounded :
    { small with seplen := 2, inlen := 4, outlen := 12, errtok := 4, inBuf := [(3, 1#8)], outBuf := [(11, 1#8)] }.CapacityInv := by
  refine ⟨by decide, by decide, by decide, by decide, by decide, by decide, by decide, by decide⟩

/-- A started DECB with SEPLEN = 0, the same with a move of the block left, and the started DECB of the empty text. -/
theorem witness_DutyStepRefusesWhatTheMarkRecords :
    let s := { started 3#2 with seplen := 0 }
    (s.blockNext ∧ s.busy = true ∧ s.op = 0b11#2 ∧ s.seplen = 0) ∧
    State.blockNext { s with turns := [.block] } ∧
    ¬ ((started 3#2).blockNext ∧ (started 3#2).busy = true ∧ (started 3#2).op = 0b11#2 ∧ (started 3#2).seplen = 0) ∧
    (started 3#2).offSpec = false ∧ (∃ t, dutyStep (started 3#2) = .next t) ∧ ∃ t, step s = .next t :=
  ⟨⟨.inl rfl, rfl, rfl, rfl⟩, .inr ⟨[], rfl⟩, fun h => absurd h.2.2.2 (by decide), rfl, ⟨_, rfl⟩, ⟨_, rfl⟩⟩

/-- Between START and the block's turn nothing is refused: the host's read of BUSY is answered. -/
theorem test_dutyStep_host_move :
    ((after (dutyStep { started 3#2 with seplen := 0, turns := [.host (.read .busy)] })).map State.answers)
      = some [⟨.busy, 1⟩] := by decide

end Sys2Proof.Tests
end

section
/-! Proofs of the statements of 00_scope.md: every step keeps the lengths within their capacities (R8), and the results
of a command depend on its own operands alone (R12). -/

namespace Sys2Proof

/-! ## The limits the capacities set -/

theorem Capacity.holds_of_le {m : Option Nat} {k n : Nat} (h : Capacity.holds m n = true) (hk : k ≤ n) :
    Capacity.holds m k = true := by
  cases m with
  | none => rfl
  | some m =>
    simp only [Capacity.holds, decide_eq_true_eq] at h ⊢
    exact hk.trans h

@[simp] theorem Capacity.holds_zero (m : Option Nat) : Capacity.holds m 0 = true := by
  cases m <;> simp [Capacity.holds]

@[simp] theorem Capacity.holds_fit (m : Option Nat) (n : Nat) : Capacity.holds m (Capacity.fit m n) = true := by
  cases m with
  | none => rfl
  | some m => exact decide_eq_true (Nat.le_of_lt_succ (Nat.mod_lt n m.succ_pos))

/-- The indices below a length that a space can hold are indices of that space. -/
theorem Capacity.hasIndex_of_lt {m : Option Nat} {a n : Nat} (h : Capacity.holds m n = true) (ha : a < n) :
    Capacity.hasIndex m a = true := by
  cases m with
  | none => rfl
  | some m =>
    simp only [Capacity.holds, decide_eq_true_eq] at h
    simpa [Capacity.hasIndex] using ha.trans_le h

theorem Capacity.legal_sepMax {c : Capacity} (h : c.legal = true) : Capacity.holds c.sepMax 1 = true := by
  cases c with
  | unbounded => rfl
  | bounded sepMax inMax outMax =>
    simp only [Capacity.legal, Bool.and_eq_true] at h
    exact h.1

/-- 00 R8: OUT_MAX holds the text of every input and separator within their capacities. -/
theorem Capacity.legal_holds_encoded {c : Capacity} {n l : Nat} (h : c.legal = true)
    (hn : Capacity.holds c.inMax n = true) (hl : Capacity.holds c.sepMax l = true) :
    Capacity.holds c.outMax (5 * (n / 2) + (n / 2 - 1) * l) = true := by
  cases c with
  | unbounded => rfl
  | bounded sepMax inMax outMax =>
    simp only [Capacity.legal, Capacity.holds, Capacity.sepMax, Capacity.inMax, Capacity.outMax, Bool.and_eq_true,
      Bool.or_eq_true, beq_iff_eq, decide_eq_true_eq] at h hn hl ⊢
    obtain ⟨-, hz | hout⟩ := h
    · have : n / 2 = 0 := by omega
      simp [this]
    · have hsep : (n / 2 - 1) * l ≤ (inMax / 2 - 1) * sepMax := Nat.mul_le_mul (by omega) hl
      omega

/-- Two bytes for each five of a text that IN holds are no more than OUT holds. -/
theorem Capacity.legal_holds_decoded {c : Capacity} {n k : Nat} (h : c.legal = true)
    (hn : Capacity.holds c.inMax n = true) (hk : 5 * k ≤ n) : Capacity.holds c.outMax (2 * k) = true :=
  Capacity.holds_of_le (Capacity.legal_holds_encoded (l := 0) h hn (Capacity.holds_zero _)) (by omega)

/-! ## How much the buffer functions produce -/

/-- Splitting only drops bytes: the candidates together are no longer than what is gathered and still to come. -/
theorem splitScan_flatten_length (sep text : List Byte) :
    ∀ (skip : Nat) (cur : List Byte), (splitScan sep skip cur text).flatten.length ≤ cur.length + text.length := by
  induction text with
  | nil => intro skip cur; simp [splitScan]
  | cons c rest ih =>
    intro skip cur
    cases skip with
    | succ k =>
      have := ih k cur
      simp only [splitScan, List.length_cons]
      omega
    | zero =>
      simp only [splitScan]
      split
      · have := ih (sep.length - 1) []
        simp only [List.flatten_cons, List.length_append, List.length_cons, List.length_nil] at this ⊢
        omega
      · have := ih 0 (cur ++ [c])
        simp only [List.length_append, List.length_cons, List.length_nil] at this ⊢
        omega

/-- A decoded text gives two bytes for each candidate of five characters. -/
theorem decodeBuffer_ok_length {r : Rom} {text sep out : List Byte} (h : decodeBuffer r text sep = .ok out) :
    ∃ k, out.length = 2 * k ∧ 5 * k ≤ text.length := by
  obtain ⟨hlen, hfive⟩ := decodeCandidates_ok h
  refine ⟨_, hlen, ?_⟩
  calc 5 * (splitText sep text).length
      = (splitText sep text).flatten.length := by
        rw [List.length_flatten, List.map_congr_left hfive]
        simp [Nat.mul_comm]
    _ ≤ text.length := (splitScan_flatten_length sep text 0 []).trans_eq (Nat.zero_add _)

/-- The index of the failing candidate is no greater than the length of the text. -/
theorem decodeBuffer_errToken_le (r : Rom) (text sep : List Byte) :
    (decodeBuffer r text sep).errToken ≤ text.length := by
  cases h : decodeBuffer r text sep with
  | ok out => exact Nat.zero_le _
  | fail e tok slot =>
    obtain ⟨-, hlt, -⟩ := decodeCandidates_fail h
    have := (splitScan_length sep text 0 []).2
    simp only [splitText] at hlt
    simp only [Result.errToken]
    omega

/-- An encoded buffer has five characters for each word, and a separator between consecutive tokens. -/
theorem joinTokens_encodeWord_length (r : Rom) (data sep : List Byte) :
    (joinTokens sep ((wordsOf data).map (encodeWord r))).length
      = 5 * (data.length / 2) + (data.length / 2 - 1) * sep.length := by
  rw [joinTokens_length, List.length_map, wordsOf_length]
  intro tok htok
  obtain ⟨w, -, rfl⟩ := List.mem_map.1 htok
  exact encodeWord_length r w

end Sys2Proof

namespace Sys2Proof.Machine

/-! ## Every move keeps the lengths within the capacities -/

/-- A completion of a buffer command keeps the capacities where OUT holds its result and ERRTOK its index. -/
theorem State.CapacityInv.finishBuffer {s : State} {r : Result (List Byte)} (h : s.CapacityInv)
    (hout : Capacity.holds s.cap.outMax (resultBytes r).length = true)
    (htok : Capacity.holds s.cap.inMax r.errToken = true) : (s.finishBuffer r).CapacityInv := by
  obtain ⟨hlegal, hseplen, hinlen, -, -, hsep, hin, -⟩ := h
  refine ⟨hlegal, hseplen, hinlen, hout, htok, hsep, hin, fun c hc => ?_⟩
  obtain ⟨-, hlt⟩ := Memory.mem_ofBytes hc
  exact Capacity.hasIndex_of_lt hout (by simpa using hlt)

/-- A word command reports no candidate and touches no buffer. -/
theorem State.CapacityInv.complete {s : State} {e : BitVec 2} {slot : BitVec 3} (h : s.CapacityInv) :
    (s.complete e 0 slot).CapacityInv := by
  obtain ⟨hlegal, hseplen, hinlen, houtlen, -, hbytes⟩ := h
  exact ⟨hlegal, hseplen, hinlen, houtlen, Capacity.holds_zero _, hbytes⟩

theorem State.CapacityInv.completeUnspecified {s : State} (h : s.CapacityInv) : s.completeUnspecified.CapacityInv := by
  obtain ⟨hlegal, hseplen, hinlen, -, -, hsep, hin, -⟩ := h
  exact ⟨hlegal, hseplen, hinlen, Capacity.holds_fit _ _, Capacity.holds_fit _ _, hsep, hin, by simp⟩

theorem State.CapacityInv.execEncb {s t : State} (h : s.CapacityInv) (he : execEncb s = .next t) : t.CapacityInv := by
  have ⟨hlegal, hseplen, hinlen, _⟩ := h
  rcases execEncb_cases s with ⟨-, hx⟩ | ⟨-, data, -, hlen, hx⟩ | ⟨-, -, hx⟩ <;> rw [hx] at he <;> cases he
  · exact h.finishBuffer (Capacity.holds_zero _) (Capacity.holds_zero _)
  · refine h.finishBuffer ?_ (Capacity.holds_zero _)
    simp only [resultBytes, joinTokens_encodeWord_length, hlen, State.sepBytes_length]
    exact Capacity.legal_holds_encoded hlegal hinlen hseplen

theorem State.CapacityInv.execDecb {s t : State} (h : s.CapacityInv) (he : execDecb s = .next t) : t.CapacityInv := by
  have ⟨hlegal, _, hinlen, _⟩ := h
  rcases execDecb_cases s with ⟨-, hx⟩ | ⟨-, text, -, hlen, hx⟩ | ⟨-, -, hx⟩ <;> rw [hx] at he <;> cases he
  · exact h.completeUnspecified
  · rw [← hlen] at hinlen
    refine h.finishBuffer ?_ (Capacity.holds_of_le hinlen (decodeBuffer_errToken_le _ _ _))
    cases hr : decodeBuffer s.rom text s.sepBytes with
    | fail e tok slot => exact Capacity.holds_zero _
    | ok out =>
      obtain ⟨k, hout, hk⟩ := decodeBuffer_ok_length hr
      simpa only [resultBytes, hout] using Capacity.legal_holds_decoded hlegal hinlen hk

theorem State.CapacityInv.exec {i : Instr} {s t : State} (h : s.CapacityInv) (he : exec i s = .next t) :
    t.CapacityInv := by
  cases i with
  | encw => cases he; exact State.CapacityInv.complete (s := { s with t := _, tlen := _ }) h
  | decw => cases he; exact State.CapacityInv.complete (s := { s with w := _ }) h
  | encb => exact h.execEncb he
  | decb => exact h.execDecb he

/-- A host write within the capacities stays within them. -/
theorem State.CapacityInv.applyWrite {s : State} {x : HostWrite} (h : s.CapacityInv)
    (hloc : x.located s.cap = true) (hlen : x.lengthHeld s.cap = true) : (s.applyWrite x).CapacityInv := by
  have ⟨hlegal, hseplen, hinlen, houtlen, herrtok, hsep, hin, hout⟩ := h
  cases x with
  | seplen n => exact ⟨hlegal, hlen, hinlen, houtlen, herrtok, hsep, hin, hout⟩
  | inlen n => exact ⟨hlegal, hseplen, hlen, houtlen, herrtok, hsep, hin, hout⟩
  | sep j b =>
    refine ⟨hlegal, hseplen, hinlen, houtlen, herrtok, fun c hc => ?_, hin, hout⟩
    obtain rfl | hc := Memory.mem_write (sp := .sep) hc
    · exact hloc
    · exact hsep c hc
  | inByte a b =>
    refine ⟨hlegal, hseplen, hinlen, houtlen, herrtok, hsep, fun c hc => ?_, hout⟩
    obtain rfl | hc := Memory.mem_write (sp := .inBuf) hc
    · exact hloc
    · exact hin c hc
  | w | t | tlen | op | outlen | busy | done | err | errtok | errslot | outByte => exact h

theorem State.CapacityInv.resetEvent {s : State} (h : s.CapacityInv) : s.resetEvent.CapacityInv := by
  obtain ⟨hlegal, -⟩ := h
  have hone := Capacity.legal_sepMax hlegal
  exact ⟨hlegal, hone, Capacity.holds_zero _, Capacity.holds_zero _, Capacity.holds_zero _,
    by simpa using Capacity.hasIndex_of_lt hone Nat.one_pos, by simp, by simp⟩

/-- Settles O55: each kind of move keeps the capacities; OUT_MAX of R8 bounds what ENCB produces, and with it DECB. -/
theorem stepsKeepTheCapacities : Obligations.StepsKeepTheCapacities := by
  intro s t h hstep
  refine step_relates (fun s t => s.CapacityInv → t.CapacityInv) ?idle ?command ?write ?read ?readFree ?start ?reset
    hstep h
  case command => exact fun i s t rest he h => State.CapacityInv.exec (s := { s with turns := rest }) h he
  case write =>
    exact fun s rest x hloc hlen _ h => State.CapacityInv.applyWrite (s := { s with turns := rest }) h hloc hlen
  case reset => exact fun s rest h => State.CapacityInv.resetEvent (s := { s with turns := rest }) h
  case idle => exact fun _ _ h => h
  case read => exact fun _ _ _ _ h => h
  case readFree => exact fun _ _ _ _ h => h
  case start => exact fun _ _ _ h => h

/-! ## What the results of a command depend on -/

theorem State.inBytes_congr {s s' : State} (hlen : s.inlen = s'.inlen)
    (hbyte : ∀ a, a < s.inlen → s.inByte a = s'.inByte a) : s.inBytes = s'.inBytes := by
  ext1 bs
  simp only [State.inBytes_eq_some, ← hlen]
  exact and_congr_right fun _ => forall₂_congr fun a ha => by rw [hbyte a ha]

theorem State.sepBytes_congr {s s' : State} (hlen : s.seplen = s'.seplen)
    (hbyte : ∀ j, j < s.seplen → s.sepByte j = s'.sepByte j) : s.sepBytes = s'.sepBytes := by
  rw [State.sepBytes, State.sepBytes, ← hlen]
  exact List.map_congr_left fun j hj => hbyte j (List.mem_range.1 hj)

/-- ENCB on the same operands completes with the same result, or has no written input. -/
theorem execEncb_congr {s s' : State} (h : sameOperands .encb s s') :
    (∃ r, execEncb s = .next (s.finishBuffer r) ∧ execEncb s' = .next (s'.finishBuffer r)) ∨
      execEncb s = .fault .unwrittenInput := by
  obtain ⟨hrom, hinlen, hin, hseplen, hsep⟩ := h
  simp only [execEncb, ← hrom, ← hinlen, ← State.inBytes_congr hinlen hin, ← State.sepBytes_congr hseplen hsep]
  split
  · exact .inl ⟨_, rfl, rfl⟩
  · cases s.inBytes with
    | none => exact .inr rfl
    | some data => exact .inl ⟨_, rfl, rfl⟩

/-- DECB with a separator, on the same operands, completes with the same result, or has no written input. -/
theorem execDecb_congr {s s' : State} (h : sameOperands .decb s s') (hne : s.seplen ≠ 0) :
    (∃ r, execDecb s = .next (s.finishBuffer r) ∧ execDecb s' = .next (s'.finishBuffer r)) ∨
      execDecb s = .fault .unwrittenInput := by
  obtain ⟨hrom, hinlen, hin, hseplen, hsep⟩ := h
  simp only [execDecb, ← hrom, ← State.inBytes_congr hinlen hin, ← State.sepBytes_congr hseplen hsep, ← hseplen,
    if_neg hne]
  cases s.inBytes with
  | none => exact .inr rfl
  | some text => exact .inl ⟨_, rfl, rfl⟩

/-- Buffer commands whose completions come from one result leave the same results. -/
theorem sameResults_of_finishBuffer {i : Instr} {s s' t : State} (hi : ¬ isWordCommand i)
    (h : (∃ r, exec i s = .next (s.finishBuffer r) ∧ exec i s' = .next (s'.finishBuffer r)) ∨
      exec i s = .fault .unwrittenInput) (he : exec i s = .next t) :
    ∃ t', exec i s' = .next t' ∧ sameResults i t t' := by
  obtain ⟨r, hs, hs'⟩ | hf := h
  · rw [hs] at he
    cases he
    refine ⟨_, hs', rfl, rfl, rfl, rfl, rfl, ?_⟩
    cases i with
    | encw => exact absurd (.inl rfl) hi
    | decw => exact absurd (.inr rfl) hi
    | encb | decb => exact ⟨rfl, fun _ => rfl⟩
  · rw [hf] at he
    cases he

theorem sameResults_execEncw {s s' t : State} (h : sameOperands .encw s s') (he : exec .encw s = .next t) :
    ∃ t', exec .encw s' = .next t' ∧ sameResults .encw t t' := by
  obtain ⟨hrom, hw⟩ := h
  cases he
  refine ⟨_, execEncw_eq s', rfl, rfl, rfl, rfl, rfl, ?_, rfl⟩
  simp [hrom, hw]

/-- The ports of the decoder are the same; where they report success, W is the decoded word in both states. -/
theorem sameResults_execDecw {s s' t : State} (h : sameOperands .decw s s') (he : exec .decw s = .next t) :
    ∃ t', exec .decw s' = .next t' ∧ sameResults .decw t t' := by
  obtain ⟨hrom, ht, htlen⟩ := h
  have hports : decodeWordModule s'.rom s'.t s'.tlen = decodeWordModule s.rom s.t s.tlen := by rw [hrom, ht, htlen]
  cases he
  refine ⟨_, rfl, ?_⟩
  rw [hports]
  exact ⟨rfl, rfl, rfl, rfl, rfl, fun hok => (if_pos hok).trans (if_pos hok).symm⟩

/-- Settles O47: each command is a function of its own operands. -/
theorem resultsDependOnOperandsAlone : Obligations.ResultsDependOnOperandsAlone := by
  intro i s s' t hne hops he
  cases i with
  | encw => exact sameResults_execEncw hops he
  | decw => exact sameResults_execDecw hops he
  | encb => exact sameResults_of_finishBuffer (by simp [isWordCommand]) (execEncb_congr hops) he
  | decb =>
    have hsep : s.seplen ≠ 0 := fun h => hne ⟨rfl, h⟩
    exact sameResults_of_finishBuffer (by simp [isWordCommand]) (execDecb_congr hops hsep) he

end Sys2Proof.Machine
end

section
/-! Proofs of the statements of 10_state.md: the values after reset (R39), the invariants every step keeps (R29, R31 to
R34), the constants (R35, R36) and who writes each register (R20). -/

namespace Sys2Proof

/-! ## What a completed command records -/

/-- The three error fields as 10 R31 and R32 allow them: a slot number, and 0 wherever the error code gives the field no
meaning. -/
def recordsFailure (err : BitVec 2) (errtok : Nat) (errslot : BitVec 3) : Prop :=
  errslot.toNat ≤ 4 ∧ (err ≠ 0b11#2 → errslot = 0#3) ∧ (err ≠ 0b10#2 → err ≠ 0b11#2 → errtok = 0)

/-- Where no candidate and no slot is named, every error code is allowed. -/
theorem recordsFailure_zero (err : BitVec 2) : recordsFailure err 0 0#3 :=
  ⟨by decide, fun _ => rfl, fun _ _ => rfl⟩

theorem recordsFailure_invalidSymbol (errtok : Nat) {errslot : BitVec 3} (h : errslot.toNat ≤ 4) :
    recordsFailure 0b11#2 errtok errslot :=
  ⟨h, fun hne => absurd rfl hne, fun _ hne => absurd rfl hne⟩

theorem recordsFailure_invalidLength (errtok : Nat) : recordsFailure 0b10#2 errtok 0#3 :=
  ⟨by decide, fun _ => rfl, fun hne => absurd rfl hne⟩

theorem decodeBuffer_recordsFailure (r : Rom) (text sep : List Byte) :
    recordsFailure (decodeBuffer r text sep).errCode (decodeBuffer r text sep).errToken
      (decodeBuffer r text sep).errSlot := by
  cases h : decodeBuffer r text sep with
  | ok out => exact recordsFailure_zero _
  | fail e tok slot =>
    obtain ⟨-, -, ⟨rfl, rfl⟩ | ⟨rfl, hslot⟩⟩ := decodeCandidates_fail h
    · exact recordsFailure_invalidLength tok
    · exact recordsFailure_invalidSymbol tok hslot

end Sys2Proof

namespace Sys2Proof.Machine

/-! ## What a completion and a host write can change -/

/-- The four forms of a completion: ENCW writes T and TLEN; DECW writes W, and only where it succeeds; a buffer command
lays its result down in OUT; DECB with the empty separator leaves its results unspecified. -/
inductive Completion (s : State) : Instr → State → Prop where
  | encw :
      Completion s .encw (State.complete { s with t := encodeWordModule s.rom s.w, tlen := 5#3 } 0b00#2 0 0#3)
  | decw (w : Word) (err : BitVec 2) (slot : BitVec 3) (hw : w ≠ s.w → err = 0b00#2)
      (hrec : recordsFailure err 0 slot) : Completion s .decw (State.complete { s with w := w } err 0 slot)
  | buffer {i : Instr} (r : Result (List Byte)) (hi : i = .encb ∨ i = .decb)
      (hrec : recordsFailure r.errCode r.errToken r.errSlot) : Completion s i (s.finishBuffer r)
  | unspecified : Completion s .decb s.completeUnspecified

theorem execDecw_completion {s t : State} (h : execDecw s = .next t) : Completion s .decw t := by
  rcases execDecw_cases s with ⟨-, hx⟩ | ⟨-, w, -, hx⟩ | ⟨-, slot, -, hslot, hx⟩ <;> rw [hx] at h <;> cases h
  · exact .decw s.w _ _ (fun hne => absurd rfl hne) (recordsFailure_zero _)
  · exact .decw w _ _ (fun _ => rfl) (recordsFailure_zero _)
  · exact .decw s.w _ _ (fun hne => absurd rfl hne) (recordsFailure_invalidSymbol 0 hslot)

theorem execEncb_completion {s t : State} (h : execEncb s = .next t) : Completion s .encb t := by
  rcases execEncb_cases s with ⟨-, hx⟩ | ⟨-, data, -, -, hx⟩ | ⟨-, -, hx⟩ <;> rw [hx] at h <;> cases h
  · exact .buffer _ (.inl rfl) (recordsFailure_zero _)
  · exact .buffer _ (.inl rfl) (recordsFailure_zero _)

theorem execDecb_completion {s t : State} (h : execDecb s = .next t) : Completion s .decb t := by
  rcases execDecb_cases s with ⟨-, hx⟩ | ⟨-, text, -, -, hx⟩ | ⟨-, -, hx⟩ <;> rw [hx] at h <;> cases h
  · exact .unspecified
  · exact .buffer _ (.inr rfl) (decodeBuffer_recordsFailure _ _ _)

/-- Every command that goes on completes in one of the four forms. -/
theorem exec_completion {i : Instr} {s t : State} (h : exec i s = .next t) : Completion s i t := by
  cases i with
  | encw => cases h; exact .encw
  | decw => exact execDecw_completion h
  | encb => exact execEncb_completion h
  | decb => exact execDecb_completion h

theorem Completion.busy {i : Instr} {s t : State} (h : Completion s i t) : t.busy = false := by
  cases h <;> rfl

theorem Completion.rom {i : Instr} {s t : State} (h : Completion s i t) : t.rom = s.rom := by
  cases h <;> rfl

theorem Completion.cap {i : Instr} {s t : State} (h : Completion s i t) : t.cap = s.cap := by
  cases h <;> rfl

/-- The block reads the operands IN and SEP, and writes neither. -/
theorem Completion.inBuf_sep {i : Instr} {s t : State} (h : Completion s i t) : t.inBuf = s.inBuf ∧ t.sep = s.sep := by
  cases h <;> exact ⟨rfl, rfl⟩

/-- A host write reaches operands only: no result, no status field, neither ROM nor capacity, nor the run's mark. -/
theorem State.applyWrite_frame (s : State) (x : HostWrite) :
    sameResultState s (s.applyWrite x) ∧ (s.applyWrite x).rom = s.rom ∧ (s.applyWrite x).cap = s.cap ∧
      (s.applyWrite x).offSpec = s.offSpec := by
  cases x <;> exact ⟨⟨rfl, rfl, rfl, rfl, rfl, rfl, rfl⟩, rfl, rfl, rfl⟩

/-- What every move keeps, every step keeps: the host's record and the moves to come (all that an idle turn, a dropped
write and a read change), a completion, an effective host write, the accepted START, the reset event. -/
theorem step_keeps (P : State → Prop)
    (record : ∀ (s : State) (turns : List Turn) (answers : List Answer) (draws : Nat), P s →
      P { s with turns := turns, answers := answers, draws := draws })
    (command : ∀ (i : Instr) (s t : State), Completion s i t → P s → P t)
    (write : ∀ (s : State) (x : HostWrite), s.busy = false → P s → P (s.applyWrite x))
    (start : ∀ s : State, P s → P s.accept)
    (reset : ∀ s : State, P s → P s.resetEvent)
    {s t : State} (h : P s) (hstep : step s = .next t) : P t := by
  have idle (s : State) (rest : List Turn) (h : P s) : P { s with turns := rest } := record s rest _ _ h
  refine step_relates (fun s t => P s → P t) idle ?command ?write ?read ?readFree ?start ?reset hstep h
  case command => exact fun i s t rest he h => command i _ t (exec_completion he) (idle s rest h)
  case write => exact fun s rest x _ _ hbusy h => write _ x hbusy (idle s rest h)
  case read => exact fun s rest x v h => record s rest _ _ h
  case readFree => exact fun s rest x f h => record s rest _ _ h
  case start => exact fun s rest _ h => start _ (idle s rest h)
  case reset => exact fun s rest h => reset _ (idle s rest h)

/-! ## The byte memories in canonical form -/

theorem Completion.memWf {i : Instr} {s t : State} (hc : Completion s i t) (h : s.memWf) : t.memWf := by
  obtain ⟨hin, hout, hsep⟩ := h
  obtain ⟨hin', hsep'⟩ := hc.inBuf_sep
  refine ⟨hin' ▸ hin, ?_, hsep' ▸ hsep⟩
  cases hc with
  | encw | decw => exact hout
  | buffer => exact Memory.wf_ofBytes rfl 0 _
  | unspecified => exact Memory.wf_ofBytes rfl 0 []

theorem State.memWf_applyWrite {s : State} (x : HostWrite) (h : s.memWf) : (s.applyWrite x).memWf := by
  obtain ⟨hin, hout, hsep⟩ := h
  cases x with
  | inByte a b => exact ⟨Memory.wf_write a b hin, hout, hsep⟩
  | sep j b => exact ⟨hin, hout, Memory.wf_write j b hsep⟩
  | w | t | tlen | op | seplen | inlen | outlen | busy | done | err | errtok | errslot | outByte =>
    exact ⟨hin, hout, hsep⟩

/-- Settles O51: a host write is a memory write, a completion replaces OUT by a run of bytes, and reset starts anew. -/
theorem stepsKeepMemoryCanonical : Obligations.StepsKeepMemoryCanonical := by
  intro s t h hstep
  refine step_keeps State.memWf ?record ?command ?write ?start ?reset h hstep
  case command => exact fun _ _ _ hc => hc.memWf
  case write => exact fun _ x _ => State.memWf_applyWrite x
  case reset => exact fun _ _ => State.memWf_reset
  case record => exact fun _ _ _ _ h => h
  case start => exact fun _ h => h

/-! ## OUT and OUTLEN -/

/-- An OUT that holds exactly a run of bytes of length OUTLEN has values below OUTLEN and nowhere else. -/
theorem State.OutInv.of_ofBytes {s : State} {bs : List Byte} (hbuf : s.outBuf = Memory.ofBytes 0 bs)
    (hlen : s.outlen = bs.length) : s.OutInv := by
  have hbyte : ∀ a, s.outByte a = bs[a]? := fun a => by rw [State.outByte, hbuf, Memory.read_ofBytes]
  refine ⟨fun a ha => ?_, fun _ a ha => ?_⟩
  · rw [hbyte, List.getElem?_eq_none (hlen ▸ ha)]
  · rw [hbyte, List.getElem?_eq_getElem (hlen ▸ ha)]
    exact Option.some_ne_none _

/-- The invariant speaks of OUT, OUTLEN and the run's mark alone. -/
theorem State.OutInv.congr {s t : State} (h : s.OutInv) (hbuf : t.outBuf = s.outBuf) (hlen : t.outlen = s.outlen)
    (hmark : t.offSpec = s.offSpec) : t.OutInv := by
  simpa only [State.OutInv, State.outByte, hbuf, hlen, hmark] using h

theorem Completion.outInv {i : Instr} {s t : State} (hc : Completion s i t) (h : s.OutInv) : t.OutInv := by
  cases hc with
  | encw | decw => exact h.congr rfl rfl rfl
  | buffer => exact .of_ofBytes rfl rfl
  | unspecified => exact ⟨fun _ _ => rfl, fun hmark => nomatch hmark⟩

/-- Settles O54: a buffer command makes OUT hold exactly its result and OUTLEN its length; nothing else but reset writes
either of them. -/
theorem stepsKeepOutExact : Obligations.StepsKeepOutExact := by
  intro s t h hstep
  refine step_keeps State.OutInv ?record ?command ?write ?start ?reset h hstep
  case command => exact fun _ _ _ hc => hc.outInv
  case write =>
    intro s x _ h
    obtain ⟨⟨hlen, hbuf, -⟩, -, -, hmark⟩ := s.applyWrite_frame x
    exact h.congr hbuf hlen hmark
  case reset => exact fun _ _ => .of_ofBytes (bs := []) rfl rfl
  case record => exact fun _ _ _ _ h => h
  case start => exact fun _ h => h

/-! ## The constants -/

/-- Settles O48: no kind of move has a ROM or a capacity among what it writes. -/
theorem romAndCapacitiesNeverChange : Obligations.RomAndCapacitiesNeverChange := by
  intro s t hstep
  refine step_keeps (fun u => u.rom = s.rom ∧ u.cap = s.cap) ?record ?command ?write ?start ?reset ⟨rfl, rfl⟩ hstep
  case command =>
    intro i u t hc h
    rwa [hc.rom, hc.cap]
  case write =>
    intro u x _ h
    obtain ⟨-, hrom, hcap, -⟩ := u.applyWrite_frame x
    rwa [hrom, hcap]
  case record => exact fun _ _ _ _ h => h
  case start => exact fun _ h => h
  case reset => exact fun _ h => h

/-! ## The status fields -/

theorem State.handshakeInv_of_not_busy {s : State} (h : s.busy = false) : s.HandshakeInv :=
  fun ⟨hbusy, _⟩ => Bool.false_ne_true (h.symm.trans hbusy)

/-- Settles O52: a completion and reset clear BUSY, an accepted START clears DONE, and no other move writes either. -/
theorem stepsKeepBusyAndDoneExclusive : Obligations.StepsKeepBusyAndDoneExclusive := by
  intro s t h hstep
  refine step_keeps State.HandshakeInv ?record ?command ?write ?start ?reset h hstep
  case command => exact fun _ _ _ hc _ => State.handshakeInv_of_not_busy hc.busy
  case write =>
    intro s x hidle _
    obtain ⟨⟨-, -, hbusy, -⟩, -⟩ := s.applyWrite_frame x
    exact State.handshakeInv_of_not_busy (hbusy.trans hidle)
  case start => exact fun _ _ ⟨_, hdone⟩ => Bool.false_ne_true hdone
  case reset => exact fun _ _ => State.handshakeInv_of_not_busy rfl
  case record => exact fun _ _ _ _ h => h

theorem State.failureInv_iff {s : State} :
    s.FailureInv ↔ (s.offSpec = false → recordsFailure s.err s.errtok s.errslot) := Iff.rfl

theorem Completion.failureInv {i : Instr} {s t : State} (hc : Completion s i t) : t.FailureInv := by
  rw [State.failureInv_iff]
  cases hc with
  | encw => exact fun _ => recordsFailure_zero _
  | decw w err slot hw hrec => exact fun _ => hrec
  | buffer r hi hrec => exact fun _ => hrec
  | unspecified => exact fun hmark => nomatch hmark

/-- Settles O53: every completion records its failure as R31 and R32 say or marks the run, and besides reset no other
move writes the error fields. -/
theorem stepsKeepTheFailureRecord : Obligations.StepsKeepTheFailureRecord := by
  intro s t h hstep
  refine step_keeps State.FailureInv ?record ?command ?write ?start ?reset h hstep
  case command => exact fun _ _ _ hc _ => hc.failureInv
  case write =>
    intro s x _ h
    obtain ⟨⟨-, -, -, -, herr, htok, hslot⟩, -, -, hmark⟩ := s.applyWrite_frame x
    rwa [State.failureInv_iff, herr, htok, hslot, hmark]
  case reset => exact fun _ _ _ => recordsFailure_zero _
  case record => exact fun _ _ _ _ h => h
  case start => exact fun _ h => h

/-! ## Who writes each register -/

/-- OP holds the code of the operation it selects. -/
theorem State.op_eq_encodeOp_selected (s : State) : s.op = encodeOp s.selected := by
  unfold State.selected
  generalize s.op = op
  revert op
  decide

/-- Settles O49: the completion of each command writes its own results, a host write the one operand it names, and the
remaining moves no register. -/
theorem onlyTheNamedAgentsWriteEachRegister : Obligations.OnlyTheNamedAgentsWriteEachRegister := by
  intro s t hstep hreset
  obtain ⟨rest, ⟨-, -, -, rfl⟩ | ⟨hblock, -, hbusy, he⟩ | ⟨x, hx, he⟩ | ⟨x, -, he⟩ | ⟨-, rfl⟩ | ⟨hx, -⟩⟩ :=
    step_cases hstep
  · simp
  · have hop := s.op_eq_encodeOp_selected
    have hc := exec_completion he
    generalize s.selected = i at hop hc
    cases hc with
    | encw => simp [hop, hblock, hbusy, encodeOp]
    | decw w err slot hw => simpa [hop, hblock, hbusy, encodeOp] using fun hne => .inr (hw hne)
    | buffer r hi => obtain rfl | rfl := hi <;> simp [hop, hblock, hbusy, encodeOp]
    | unspecified => simp [hop, hblock, hbusy, encodeOp]
  · have hnext : s.hostNext (.write x) := ⟨rest, hx⟩
    obtain ⟨-, ⟨-, rfl⟩ | ⟨-, -, rfl⟩⟩ := State.hostWrite_cases he
    · simp
    · cases x with
      | w v | t v | tlen v => simpa [State.applyWrite] using fun _ => .inl ⟨v, hnext⟩
      | op v | seplen v | inlen v => simpa [State.applyWrite] using fun _ => ⟨v, hnext⟩
      | sep a b | inByte a b => simpa [State.applyWrite] using fun _ => ⟨a, b, hnext⟩
      | outlen | busy | done | err | errtok | errslot | outByte => simp [State.applyWrite]
  · obtain ⟨-, ⟨v, -, rfl⟩ | ⟨-, rfl⟩⟩ := State.hostRead_cases he <;> simp
  · obtain ⟨-, h⟩ | ⟨-, h⟩ := State.hostStart_cases { s with turns := rest } <;> simp [h]
  · exact absurd ⟨rest, hx⟩ hreset

/-! ## The state after reset -/

/-- Settles O1: SEP lists its first byte alone, so every other one reads 0x00, and IN and OUT list nothing. -/
theorem resetLeavesTheListedValues : Obligations.ResetLeavesTheListedValues := by
  have hsep : ∀ j, 0 < j → State.reset.sepByte j = 0x00#8 := by
    intro j hj
    simp [State.sepByte, State.reset, Memory.find, sepUnlisted, hj.ne]
  exact ⟨⟨rfl, rfl, rfl, rfl, rfl, rfl, hsep, rfl, rfl, rfl, rfl, rfl, rfl, rfl, fun _ => rfl, fun _ => rfl⟩,
    by decide⟩

/-- Settles O56: nothing runs, no failure is recorded, OUT is the empty run of bytes, and no capacity is bounded. -/
theorem resetMeetsTheInvariants : Obligations.ResetMeetsTheInvariants := by
  refine ⟨State.memWf_reset, State.handshakeInv_of_not_busy rfl, fun _ => recordsFailure_zero _,
    .of_ofBytes (bs := []) rfl rfl, ?_⟩
  exact ⟨rfl, rfl, rfl, rfl, rfl, fun _ _ => rfl, fun _ _ => rfl, fun _ _ => rfl⟩

end Sys2Proof.Machine
end

section
/-! Proofs of the statements of 20_memory.md: no host operation disturbs a running command (R57, R61), no read has a
side effect on the block, and every command repeated on unchanged operands gives the same state (R58). -/

namespace Sys2Proof.Machine

/-! ## The host's operations while a command runs -/

theorem State.hostWrite_of_busy {s : State} {x : HostWrite} (hl : x.located s.cap = true) (hb : s.busy = true) :
    s.hostWrite x = .next s := by
  simp [State.hostWrite, hl, hb]

/-- A read of an existing location always goes on, and writes the host's record and the draw count alone. -/
theorem State.hostRead_of_located {s : State} {x : HostRead} (hl : x.located s.cap = true) :
    ∃ answers draws, s.hostRead x = .next { s with answers := answers, draws := draws } := by
  cases hv : s.readable x with
  | some v =>
    have h : s.hostRead x = .next (s.answer x v) := by simp [State.hostRead, hl, hv]
    exact ⟨_, _, h⟩
  | none =>
    have h : s.hostRead x = .next (s.answerFree x (x.narrow s.cap)) := by simp [State.hostRead, hl, hv]
    exact ⟨_, _, h⟩

theorem State.hostStart_of_busy {s : State} (hb : s.busy = true) : s.hostStart = s := if_pos hb

/-- The host operation names a location that exists in an instance with these capacities (44 R191). -/
def HostOp.located (c : Capacity) : HostOp → Bool
  | .write x => x.located c
  | .read x => x.located c
  | .start => true

/-- While a command runs, a host operation on an existing location leaves the block as it is. -/
theorem State.hostTurn_of_busy {s : State} {x : HostOp} (hl : x.located s.cap = true) (hb : s.busy = true) :
    ∃ answers draws, s.hostTurn x = .next { s with answers := answers, draws := draws } := by
  cases x with
  | write x => exact ⟨_, _, State.hostWrite_of_busy hl hb⟩
  | read x => exact State.hostRead_of_located hl
  | start => exact ⟨_, _, congrArg _ (State.hostStart_of_busy hb)⟩

theorem step_of_host {s : State} {x : HostOp} {rest : List Turn} (h : s.turns = .host x :: rest) :
    step s = State.hostTurn { s with turns := rest } x := by
  simp [step, h]

/-- When the listed moves are over, the next step of a running command completes it. -/
theorem step_of_running {s : State} (h : s.turns = []) (hb : s.busy = true) : step s = exec s.selected s := by
  simp [step, h, State.blockTurn, hb]

theorem run_succ_of_next {M : Host.Core} {s t : M.State} (k : Nat) (h : M.step s = .next t) :
    M.run (k + 1) s = M.run k t := by
  rw [Host.Core.run, h]

/-- A running command and its operands outlast any list of host operations on existing locations. -/
theorem run_host_of_busy {ops : List HostOp} {s : State} (hb : s.busy = true) (ht : s.turns = ops.map Turn.host)
    (hl : ∀ x ∈ ops, x.located s.cap = true) :
    ∃ answers draws, core.run ops.length s = .next { s with turns := [], answers := answers, draws := draws } := by
  induction ops generalizing s with
  | nil => exact ⟨s.answers, s.draws, by rw [← show s.turns = [] from ht]; rfl⟩
  | cons x rest ih =>
    obtain ⟨hx, hrest⟩ := List.forall_mem_cons.1 hl
    obtain ⟨answers, draws, hstep⟩ := State.hostTurn_of_busy (s := { s with turns := rest.map Turn.host }) hx hb
    rw [← step_of_host ht] at hstep
    obtain ⟨answers, draws, hrun⟩ := ih (s := { s with turns := rest.map Turn.host, answers := answers, draws := draws })
      hb rfl hrest
    exact ⟨answers, draws, (run_succ_of_next (M := core) _ hstep).trans hrun⟩

/-- Settles O9: each host operation leaves the running block as it is, so the block's turn finds the command as it was
started. -/
theorem hostCannotDisturbARunningCommand : Obligations.HostCannotDisturbARunningCommand := by
  intro s ops hb ht hwrite hread
  have hl : ∀ x ∈ ops, x.located s.cap = true := by
    intro x hx
    cases x with
    | write x => exact hwrite x hx
    | read x => exact hread x hx
    | start => rfl
  obtain ⟨answers, draws, hrun⟩ := run_host_of_busy hb ht hl
  exact ⟨answers, draws, hrun, step_of_running rfl hb⟩

/-! ## A command repeated -/

/-- No command writes its own operands. -/
theorem Completion.sameOperands {i : Instr} {s t : State} (h : Completion s i t) : sameOperands i s t := by
  cases h with
  | encw => exact ⟨rfl, rfl⟩
  | decw => exact ⟨rfl, rfl, rfl⟩
  | buffer r hi => obtain rfl | rfl := hi <;> exact ⟨rfl, rfl, fun _ _ => rfl, rfl, fun _ _ => rfl⟩
  | unspecified => exact ⟨rfl, rfl, fun _ _ => rfl, rfl, fun _ _ => rfl⟩

theorem State.finishBuffer_finishBuffer (s : State) (r : Result (List Byte)) :
    (s.finishBuffer r).finishBuffer r = s.finishBuffer r := rfl

/-- DECW finds the same T and TLEN again: it decodes the same word, or again leaves W as it is. -/
theorem execDecw_idempotent {s t : State} (he : execDecw s = .next t) : execDecw t = .next t := by
  cases he
  by_cases hok : (decodeWordModule s.rom s.t s.tlen).err_o = 0b00#2 <;> simp [execDecw, State.complete, hok]

/-- A buffer command that has the same result before and after its completion changes nothing the second time. -/
theorem exec_idempotent_of_finishBuffer {i : Instr} {s t : State}
    (h : (∃ r, exec i s = .next (s.finishBuffer r) ∧ exec i t = .next (t.finishBuffer r)) ∨
      exec i s = .fault .unwrittenInput) (he : exec i s = .next t) : exec i t = .next t := by
  obtain ⟨r, hs, ht⟩ | hf := h
  · rw [hs] at he
    cases he
    rwa [State.finishBuffer_finishBuffer] at ht
  · rw [hf] at he
    cases he

theorem exec_idempotent {i : Instr} {s t : State} (hne : ¬ emptySeparator i s) (he : exec i s = .next t) :
    exec i t = .next t := by
  have hops := (exec_completion he).sameOperands
  cases i with
  | encw => cases he; rfl
  | decw => exact execDecw_idempotent he
  | encb => exact exec_idempotent_of_finishBuffer (execEncb_congr hops) he
  | decb => exact exec_idempotent_of_finishBuffer (execDecb_congr hops fun h => hne ⟨rfl, h⟩) he

/-- Settles O17: a read writes the host's record and the draw count alone, and a command's completion leaves it the same
operands to complete on again. -/
theorem readsAreHarmlessAndCommandsIdempotent : Obligations.ReadsAreHarmlessAndCommandsIdempotent := by
  refine ⟨fun s t x hnext hstep => ?_, fun i s t => exec_idempotent⟩
  obtain ⟨rest, hturns⟩ := hnext
  rw [step_of_host hturns] at hstep
  obtain ⟨-, ⟨v, -, rfl⟩ | ⟨-, rfl⟩⟩ := State.hostRead_cases hstep <;> simp [sameHostWritten, sameResultState]

end Sys2Proof.Machine
end

section
/-! Proofs of the statements of 30_encoding.md: the inverse lookups (R84, R85), the splitter and the merger (R86, R87),
the scan of split (R91), the operation codes (R92) and the tokens as the range of encode_word (R95). -/

namespace Sys2Proof

/-! ## The alphabets and their inverse lookups -/

theorem Rom.mem_crom_iff {r : Rom} {c : Byte} : c ∈ r.crom.toList ↔ ∃ i, r.cons i = c :=
  ⟨fun h => ⟨_, Rom.cons_cinv (Rom.cinv_valid.2 h)⟩, fun ⟨i, hi⟩ => hi ▸ r.cons_mem i⟩

theorem Rom.mem_vrom_iff {r : Rom} {c : Byte} : c ∈ r.vrom.toList ↔ ∃ i, r.vowel i = c :=
  ⟨fun h => ⟨_, Rom.vowel_vinv (Rom.vinv_valid.2 h)⟩, fun ⟨i, hi⟩ => hi ▸ r.vowel_mem i⟩

theorem Rom.cinv_cons {r : Rom} (h : r.crom.toList.Nodup) (i : BitVec 4) : r.cinv (r.cons i) = (true, i) := by
  have hvalid : (r.cinv (r.cons i)).1 = true := Rom.cinv_valid.2 (r.cons_mem i)
  exact Prod.ext hvalid (Rom.cons_injective h (Rom.cons_cinv hvalid))

theorem Rom.vinv_vowel {r : Rom} (h : r.vrom.toList.Nodup) (i : BitVec 2) : r.vinv (r.vowel i) = (true, i) := by
  have hvalid : (r.vinv (r.vowel i)).1 = true := Rom.vinv_valid.2 (r.vowel_mem i)
  exact Prod.ext hvalid (Rom.vowel_injective h (Rom.vowel_vinv hvalid))

theorem Rom.cinv_eq_iff {r : Rom} (h : r.crom.toList.Nodup) {c : Byte} {i : BitVec 4} :
    r.cinv c = (true, i) ↔ r.cons i = c := by
  constructor
  · intro hc
    have := Rom.cons_cinv (r := r) (c := c) (by rw [hc])
    rwa [hc] at this
  · rintro rfl
    exact Rom.cinv_cons h i

theorem Rom.vinv_eq_iff {r : Rom} (h : r.vrom.toList.Nodup) {c : Byte} {i : BitVec 2} :
    r.vinv c = (true, i) ↔ r.vowel i = c := by
  constructor
  · intro hc
    have := Rom.vowel_vinv (r := r) (c := c) (by rw [hc])
    rwa [hc] at this
  · rintro rfl
    exact Rom.vinv_vowel h i

theorem Rom.cinv_of_not_mem {r : Rom} {c : Byte} (h : c ∉ r.crom.toList) : r.cinv c = (false, 0#4) := by
  have hnone : r.crom.toList.findIdx? (· == c) = none :=
    List.findIdx?_eq_none_iff.2 fun x hx => beq_false_of_ne fun e => h (e ▸ hx)
  rw [Rom.cinv, hnone]

theorem Rom.vinv_of_not_mem {r : Rom} {c : Byte} (h : c ∉ r.vrom.toList) : r.vinv c = (false, 0#2) := by
  have hnone : r.vrom.toList.findIdx? (· == c) = none :=
    List.findIdx?_eq_none_iff.2 fun x hx => beq_false_of_ne fun e => h (e ▸ hx)
  rw [Rom.vinv, hnone]

/-- Settles O29: the entries of each legal ROM are distinct, so its lookup returns the one index of a byte, and the two
ROMs share no byte. -/
theorem inverseLookupsInvertTheRoms : Obligations.InverseLookupsInvertTheRoms := by
  intro r hr
  refine ⟨fun c i => Rom.cinv_eq_iff (Rom.legal_consonants_nodup hr), fun c h => Rom.cinv_of_not_mem ?_,
    fun c i => Rom.vinv_eq_iff (Rom.legal_vowels_nodup hr), fun c h => Rom.vinv_of_not_mem ?_, fun c => ?_⟩
  · rw [Rom.mem_crom_iff]
    exact not_exists.2 h
  · rw [Rom.mem_vrom_iff]
    exact not_exists.2 h
  · rw [Rom.cinv_invalid, Rom.vinv_invalid]
    by_cases hc : c ∈ r.crom.toList
    · exact .inr (Rom.legal_disjoint hr hc)
    · exact .inl hc

/-! ## The tokens of the words -/

@[simp] theorem encodeWord_mergeFields (r : Rom) (f : Fields) :
    encodeWord r (mergeFields f) = [r.cons f.c0, r.vowel f.v0, r.cons f.c1, r.vowel f.v1, r.cons f.c2] := by
  simp [encodeWord]

/-- Equal tokens have equal fields slot by slot, and the fields determine the word. -/
theorem encodeWord_injective {r : Rom} (hr : r.legal = true) {w w' : Word} (h : encodeWord r w = encodeWord r w') :
    w = w' := by
  have hc := Rom.legal_consonants_nodup hr
  have hv := Rom.legal_vowels_nodup hr
  simp only [encodeWord, List.cons.injEq, and_true] at h
  obtain ⟨h0, h1, h2, h3, h4⟩ := h
  have hfields : splitWord w = splitWord w' := by
    rw [Fields.mk.injEq]
    exact ⟨Rom.cons_injective hc h0, Rom.vowel_injective hv h1, Rom.cons_injective hc h2, Rom.vowel_injective hv h3,
      Rom.cons_injective hc h4⟩
  rw [← mergeFields_splitWord w, hfields, mergeFields_splitWord]

/-- The sequences whose characters are each in their slot's alphabet, five to a token, written out. -/
theorem validToken_iff {r : Rom} {t : List Byte} :
    (t.length = 5 ∧ ∀ k c, t[k]? = some c → r.memberAt k c) ↔
      ∃ c0 v0 c1 v1 c2, t = [r.cons c0, r.vowel v0, r.cons c1, r.vowel v1, r.cons c2] := by
  constructor
  · rintro ⟨hlen, hmem⟩
    match t, hlen with
    | [b0, b1, b2, b3, b4], _ =>
      obtain ⟨c0, rfl⟩ := Rom.mem_crom_iff.1 (hmem 0 b0 rfl)
      obtain ⟨v0, rfl⟩ := Rom.mem_vrom_iff.1 (hmem 1 b1 rfl)
      obtain ⟨c1, rfl⟩ := Rom.mem_crom_iff.1 (hmem 2 b2 rfl)
      obtain ⟨v1, rfl⟩ := Rom.mem_vrom_iff.1 (hmem 3 b3 rfl)
      obtain ⟨c2, rfl⟩ := Rom.mem_crom_iff.1 (hmem 4 b4 rfl)
      exact ⟨c0, v0, c1, v1, c2, rfl⟩
  · rintro ⟨c0, v0, c1, v1, c2, rfl⟩
    refine ⟨rfl, fun k c hk => ?_⟩
    match k, hk with
    | 0, rfl => exact r.cons_mem c0
    | 1, rfl => exact r.vowel_mem v0
    | 2, rfl => exact r.cons_mem c1
    | 3, rfl => exact r.vowel_mem v1
    | 4, rfl => exact r.cons_mem c2

/-- Settles O25: the token of the merged indices is the one with those symbols, and different words differ in a
field. -/
theorem everyValidTokenIsTheTokenOfOneWord : Obligations.EveryValidTokenIsTheTokenOfOneWord := by
  refine fun r hr => ⟨fun w w' => encodeWord_injective hr, fun t => ?_⟩
  rw [validToken_iff]
  constructor
  · rintro ⟨w, rfl⟩
    exact ⟨_, _, _, _, _, rfl⟩
  · rintro ⟨c0, v0, c1, v1, c2, rfl⟩
    exact ⟨mergeFields ⟨c0, v0, c1, v1, c2⟩, encodeWord_mergeFields r _⟩

/-! ## split -/

@[simp] theorem splitText_nil (sep : List Byte) : splitText sep [] = [[]] := rfl

theorem splitText_ne_nil (sep text : List Byte) : splitText sep text ≠ [] :=
  List.ne_nil_of_length_pos (splitScan_length sep text 0 []).1

/-- A separator at the front closes the empty candidate, and its bytes are passed over. -/
theorem splitText_sep_append {sep : List Byte} (hsep : sep ≠ []) (rest : List Byte) :
    splitText sep (sep ++ rest) = [] :: splitText sep rest := by
  obtain ⟨c, tail, rfl⟩ := List.exists_cons_of_ne_nil hsep
  have hprefix : (c :: tail).isPrefixOf (c :: (tail ++ rest)) = true :=
    List.isPrefixOf_iff_prefix.2 (List.prefix_append (c :: tail) rest)
  simp only [splitText, List.cons_append, splitScan, hprefix, if_true]
  rw [splitScan_skip]
  simp

/-- Where no separator begins, the byte joins the first candidate of what follows. -/
theorem splitText_cons {sep rest cand : List Byte} {c : Byte} {cands : List (List Byte)}
    (hno : ¬ sep <+: c :: rest) (h : splitText sep rest = cand :: cands) :
    splitText sep (c :: rest) = (c :: cand) :: cands := by
  have hstep : splitText sep (c :: rest) = splitScan sep 0 [c] rest :=
    if_neg (mt List.isPrefixOf_iff_prefix.1 hno)
  rw [hstep, splitScan_cur, ← splitText, h]
  rfl

theorem joinTokens_nil_cons (sep : List Byte) {toks : List (List Byte)} (h : toks ≠ []) :
    joinTokens sep ([] :: toks) = sep ++ joinTokens sep toks := by
  obtain ⟨tok, rest, rfl⟩ := List.exists_cons_of_ne_nil h
  rfl

theorem joinTokens_cons_cons (sep tok : List Byte) (c : Byte) (toks : List (List Byte)) :
    joinTokens sep ((c :: tok) :: toks) = c :: joinTokens sep (tok :: toks) := by
  cases toks <;> rfl

/-- The candidates joined with the separator are the text they were split from. -/
theorem joinTokens_splitText {sep : List Byte} (hsep : sep ≠ []) (text : List Byte) :
    joinTokens sep (splitText sep text) = text := by
  by_cases hp : sep <+: text
  · obtain ⟨rest, rfl⟩ := hp
    have hshorter : rest.length < (sep ++ rest).length := by
      have := List.length_pos_of_ne_nil hsep
      rw [List.length_append]
      omega
    rw [splitText_sep_append hsep, joinTokens_nil_cons sep (splitText_ne_nil sep rest),
      joinTokens_splitText hsep rest]
  · cases text with
    | nil => rfl
    | cons c rest =>
      obtain ⟨cand, cands, h⟩ := List.exists_cons_of_ne_nil (splitText_ne_nil sep rest)
      rw [splitText_cons hp h, joinTokens_cons_cons, ← h, joinTokens_splitText hsep rest]
termination_by text.length

/-- Settles O35: one equation of split for each branch of the scan, and join by recursion on the text. -/
theorem splitFollowsItsPseudocode : Obligations.SplitFollowsItsPseudocode := fun sep hsep =>
  ⟨splitText_nil sep, splitText_sep_append hsep, fun _ _ _ _ => splitText_cons,
    fun text => ⟨splitText_ne_nil sep text, joinTokens_splitText hsep text⟩⟩

/-! ## The splitter and the merger -/

/-- A field of a word is the word shifted down to it and masked to its width. -/
theorem toNat_extractLsb'_eq_shift_and_mask (w : Word) (start : Nat) {len : Nat} (hlen : len ≤ 16) :
    (w.extractLsb' start len).toNat = (w >>> start &&& BitVec.ofNat 16 (2 ^ len - 1)).toNat := by
  have hmask : 2 ^ len - 1 < 2 ^ 16 := by
    have := Nat.pow_le_pow_right Nat.two_pos hlen
    omega
  rw [BitVec.extractLsb'_toNat, BitVec.toNat_and, BitVec.toNat_ushiftRight, BitVec.toNat_ofNat,
    Nat.mod_eq_of_lt hmask, Nat.and_two_pow_sub_one_eq_mod]

/-- Settles O27: each field is the shift-and-mask form at its own offset and width. -/
theorem splitterIsShiftAndMask : Obligations.SplitterIsShiftAndMask := fun w =>
  ⟨toNat_extractLsb'_eq_shift_and_mask w 12 (by decide), toNat_extractLsb'_eq_shift_and_mask w 10 (by decide),
    toNat_extractLsb'_eq_shift_and_mask w 6 (by decide), toNat_extractLsb'_eq_shift_and_mask w 4 (by decide),
    toNat_extractLsb'_eq_shift_and_mask w 0 (by decide)⟩

/-- A value of `n` bits in a word stays below `2 ^ n`. -/
theorem toNat_setWidth_word_lt {n : Nat} (x : BitVec n) : (x.setWidth 16).toNat < 2 ^ n :=
  (BitVec.toNat_setWidth 16 x ▸ Nat.mod_le _ _).trans_lt x.isLt

/-- Settles O28: each accumulator is the concatenation of the fields so far, extended to 16 bits, since appending a
field is a shift and an OR. -/
theorem mergerIsSerialAccumulation : Obligations.MergerIsSerialAccumulation := by
  intro f acc1 acc2 acc3 acc4
  have h1 : acc1 = f.c0.setWidth 16 := by simp [acc1]
  have h2 : acc2 = (f.c0 ++ f.v0).setWidth 16 := by
    rw [BitVec.setWidth_append_eq_shiftLeft_setWidth_or, ← h1]
  have h3 : acc3 = (f.c0 ++ f.v0 ++ f.c1).setWidth 16 := by
    rw [BitVec.setWidth_append_eq_shiftLeft_setWidth_or, ← h2]
  have h4 : acc4 = (f.c0 ++ f.v0 ++ f.c1 ++ f.v1).setWidth 16 := by
    rw [BitVec.setWidth_append_eq_shiftLeft_setWidth_or, ← h3]
  refine ⟨?_, h1 ▸ toNat_setWidth_word_lt _, h2 ▸ toNat_setWidth_word_lt _, h3 ▸ toNat_setWidth_word_lt _,
    h4 ▸ toNat_setWidth_word_lt _⟩
  calc mergeFields f = (f.c0 ++ f.v0 ++ f.c1 ++ f.v1 ++ f.c2).setWidth 16 := (BitVec.setWidth_eq _).symm
    _ = (acc4 <<< 4) ||| f.c2.zeroExtend 16 := by
      rw [BitVec.setWidth_append_eq_shiftLeft_setWidth_or, ← h4]

/-! ## The operation codes -/

@[simp] theorem decodeOp_encodeOp (i : Instr) : decodeOp (encodeOp i) = i := by
  cases i <;> rfl

@[simp] theorem encodeOp_decodeOp (op : BitVec 2) : encodeOp (decodeOp op) = op := by
  revert op
  decide

/-- A byte whose six high bits are 0 is its two low bits. -/
theorem zeroExtend_low_bits_of_high_bits_zero {b : Byte} (h : b.extractLsb' 2 6 = 0#6) :
    (b.extractLsb' 0 2).zeroExtend 8 = b := by
  have hb : b.extractLsb' 2 6 ++ b.extractLsb' 0 2 = b := BitVec.extractLsb'_append_extractLsb' (w := 6) (len := 2)
  rw [h] at hb
  exact (BitVec.setWidth_eq_append (by decide)).trans hb

@[simp] theorem decode_encode_append (i : Instr) (rest : List Byte) : decode (encode i ++ rest) = .ok (i, rest) := by
  cases i <;> rfl

theorem decode_eq_ok_iff {i : Instr} {bytes rest : List Byte} :
    decode bytes = .ok (i, rest) ↔ bytes = encode i ++ rest := by
  constructor
  · intro h
    match bytes with
    | b :: tail =>
      rw [decode] at h
      split at h
      next hhigh =>
        cases h
        simp [encode, zeroExtend_low_bits_of_high_bits_zero hhigh]
      next => cases h
  · rintro rfl
    exact decode_encode_append i rest

/-- Settles O57: each code is the encoding of its operation. -/
theorem theFourCodesDecode : Obligations.TheFourCodesDecode :=
  ⟨decode_encode_append .encw [], decode_encode_append .decw [], decode_encode_append .encb [],
    decode_encode_append .decb []⟩

theorem Instr.wellFormed_eq_true (i : Instr) : i.wellFormed = true := by
  cases i <;> rfl

/-- Settles O58: the two low bits of an accepted byte are the code of the operation, and its high bits are 0. -/
theorem decodingInvertsEncoding : Obligations.DecodingInvertsEncoding := fun i _ _ =>
  ⟨decode_eq_ok_iff, decodeOp_encodeOp i, i.wellFormed_eq_true⟩

end Sys2Proof
end

section
/-! Proof of the statement of 40_encode_word.md: ENCW lays the symbols of W's fields in the lanes of T (R112, R114). -/

namespace Sys2Proof

/-- R112: lane k of the module's token is the ROM lookup of field k. -/
theorem encodeWordModule_lanes (r : Rom) (w : Word) :
    (encodeWordModule r w).extractLsb' 32 8 = r.cons (w.extractLsb' 12 4) ∧
    (encodeWordModule r w).extractLsb' 24 8 = r.vowel (w.extractLsb' 10 2) ∧
    (encodeWordModule r w).extractLsb' 16 8 = r.cons (w.extractLsb' 6 4) ∧
    (encodeWordModule r w).extractLsb' 8 8 = r.vowel (w.extractLsb' 4 2) ∧
    (encodeWordModule r w).extractLsb' 0 8 = r.cons (w.extractLsb' 0 4) := by
  have hlanes := tokenLanes_encodeWordModule r w
  simpa only [tokenLanes, encodeWord, splitWord, List.cons.injEq, and_true] using hlanes

end Sys2Proof

namespace Sys2Proof.Machine

/-- Settles O19: the token is the output of the module on W, and its lanes are the lookups of W's fields. -/
theorem encwWritesTheToken : Obligations.EncwWritesTheToken := fun s =>
  ⟨encodeWordModule s.rom s.w, execEncw_eq s, encodeWordModule_lanes s.rom s.w⟩

end Sys2Proof.Machine
end

section
/-! Proofs of the statements of 41_decode_word.md: decode_word by its three results (R135, R139), the module's ports and
DECW after it (R132 to R136), and the two round trips (R137, R138). -/

namespace Sys2Proof

/-! ## The results of decode_word -/

theorem decodeWord_of_length_ne {t : List Byte} (r : Rom) (h : t.length ≠ 5) :
    decodeWord r t = .fail .invalidLength 0 0#3 := by
  unfold decodeWord
  split
  · exact absurd rfl h
  · rfl

/-- The valid bit of the inverse lookup of slot `k` (41 R131). -/
def Rom.validAt (r : Rom) (k : Nat) (c : Byte) : Bool :=
  if k % 2 = 0 then (r.cinv c).1 else (r.vinv c).1

theorem Rom.validAt_iff {r : Rom} {k : Nat} {c : Byte} : r.validAt k c = true ↔ r.memberAt k c := by
  unfold Rom.validAt Rom.memberAt
  split
  · exact Rom.cinv_valid
  · exact Rom.vinv_valid

theorem firstBadSlot_eq_findIdx? (v0 v1 v2 v3 v4 : Bool) :
    firstBadSlot v0 v1 v2 v3 v4 = ([v0, v1, v2, v3, v4].findIdx? (!·)).map (BitVec.ofNat 3) := by
  revert v0 v1 v2 v3 v4
  decide

/-- R133: the slot a bad token reports is the lowest whose byte is not in its slot's alphabet. -/
theorem decodeWord_of_lowestBadSlot {r : Rom} {t : List Byte} {k : Nat} (h : lowestBadSlot r t k) :
    decodeWord r t = .fail .invalidSymbol 0 (BitVec.ofNat 3 k) := by
  obtain ⟨hlen, ⟨c, hc, hbad⟩, hgood⟩ := h
  have hfind : (t.mapIdx r.validAt).findIdx? (!·) = some k := by
    obtain ⟨hk, rfl⟩ := List.getElem?_eq_some_iff.1 hc
    refine List.findIdx?_eq_some_iff_getElem.2 ⟨by simpa using hk, ?_, fun j hj => ?_⟩
    · simpa [← Rom.validAt_iff] using hbad
    · simpa [Rom.validAt_iff] using hgood j _ hj (List.getElem?_eq_getElem (hj.trans hk))
  match t, hlen with
  | [c0, c1, c2, c3, c4], _ =>
    have hbits : [c0, c1, c2, c3, c4].mapIdx r.validAt
        = [(r.cinv c0).1, (r.vinv c1).1, (r.cinv c2).1, (r.vinv c3).1, (r.cinv c4).1] := by
      simp [Rom.validAt]
    rw [hbits] at hfind
    simp only [decodeWord, decodeSymbols, firstBadSlot_eq_findIdx?, hfind, Option.map_some]

/-- R137: each symbol's lookup returns the field it was looked up by. -/
theorem decodeWord_encodeWord {r : Rom} (hr : r.legal = true) (w : Word) : decodeWord r (encodeWord r w) = .ok w := by
  have hc := Rom.cinv_cons (Rom.legal_consonants_nodup hr)
  have hv := Rom.vinv_vowel (Rom.legal_vowels_nodup hr)
  refine decodeSymbols_eq_ok.2 ⟨?_, ?_⟩
  · simp only [hc, hv, and_self]
  · simp only [hc, hv]
    exact mergeFields_splitWord w

/-- R138: the fields of the decoded word are the indices of the token's symbols. -/
theorem encodeWord_of_decodeWord {r : Rom} {t : List Byte} {w : Word} (h : decodeWord r t = .ok w) :
    encodeWord r w = t := by
  match t, decodeWord_ok_length h with
  | [c0, c1, c2, c3, c4], _ =>
    obtain ⟨⟨h0, h1, h2, h3, h4⟩, rfl⟩ := decodeSymbols_eq_ok.1 h
    rw [encodeWord_mergeFields, Rom.cons_cinv h0, Rom.vowel_vinv h1, Rom.cons_cinv h2, Rom.vowel_vinv h3,
      Rom.cons_cinv h4]

/-- Settles O24: the symbol at each decoded index is the token's own byte. -/
theorem tokenRoundTrip : Obligations.TokenRoundTrip := fun _ _ _ => encodeWord_of_decodeWord

/-! ## Tokens in the lanes -/

/-- The lanes of a token have a lowest bad slot where one of the five is bad and those below it are not. -/
theorem lowestBadSlot_tokenLanes {r : Rom} {tok : Token} {k : Nat} (hk : k < 5)
    (hgood : ∀ j c, j < k → (tokenLanes tok)[j]? = some c → r.memberAt j c)
    (hbad : ∀ c, (tokenLanes tok)[k]? = some c → ¬ r.memberAt k c) : lowestBadSlot r (tokenLanes tok) k :=
  have hlane : (tokenLanes tok)[k]? = some (tokenLanes tok)[k] := List.getElem?_eq_getElem hk
  ⟨rfl, ⟨_, hlane, hbad _ hlane⟩, hgood⟩

theorem tokenOfIndices_eq (r : Rom) (i0 : BitVec 4) (i1 : BitVec 2) (i2 : BitVec 4) (i3 : BitVec 2) (i4 : BitVec 4) :
    tokenOfIndices r i0 i1 i2 i3 i4 = encodeWordModule r (i0 ++ i1 ++ i2 ++ i3 ++ i4) := by
  have hfields : splitWord (i0 ++ i1 ++ i2 ++ i3 ++ i4) = ⟨i0, i1, i2, i3, i4⟩ :=
    splitWord_mergeFields ⟨i0, i1, i2, i3, i4⟩
  rw [encodeWordModule, hfields]
  rfl

theorem decodeWord_encodeWordModule {r : Rom} (hr : r.legal = true) (w : Word) :
    decodeWord r (tokenLanes (encodeWordModule r w)) = .ok w := by
  rw [tokenLanes_encodeWordModule, decodeWord_encodeWord hr]

/-! ## The ports of proquint_decode_word -/

theorem decodeWordModule_of_length_ne (r : Rom) (tok : Token) {len : BitVec 3} (h : len ≠ 5#3) :
    (decodeWordModule r tok len).err_o = 0b10#2 ∧ (decodeWordModule r tok len).err_slot_o = 0#3 := by
  simp [decodeWordModule, h, Failure.code]

theorem decodeWordModule_of_ok {r : Rom} {tok : Token} {w : Word} (h : decodeWord r (tokenLanes tok) = .ok w) :
    (decodeWordModule r tok 5#3).word_o = w ∧ (decodeWordModule r tok 5#3).err_o = 0b00#2 := by
  simp [decodeWordModule, h]

theorem decodeWordModule_of_fail {r : Rom} {tok : Token} {e : Failure} {k : Nat} {slot : BitVec 3}
    (h : decodeWord r (tokenLanes tok) = .fail e k slot) :
    (decodeWordModule r tok 5#3).err_o = e.code ∧ (decodeWordModule r tok 5#3).err_slot_o = slot := by
  simp [decodeWordModule, h]

/-- Settles O21: the module is decode_word on the lanes once the length is 5, and the length alone decides before. -/
theorem decodeModuleChecksLengthThenSymbols : Obligations.DecodeModuleChecksLengthThenSymbols := by
  refine ⟨fun r tok _ => decodeWordModule_of_length_ne r tok, fun r tok k hk hgood hbad => ?_,
    fun r i0 i1 i2 i3 i4 hr => ?_⟩
  · exact decodeWordModule_of_fail (decodeWord_of_lowestBadSlot (lowestBadSlot_tokenLanes hk hgood hbad))
  · rw [tokenOfIndices_eq]
    exact decodeWordModule_of_ok (decodeWord_encodeWordModule hr _)

/-- The lanes presented for a candidate of five bytes are its bytes. -/
theorem tokenLanes_presentToken {cand : List Byte} (filler : Byte) (h : cand.length = 5) :
    tokenLanes (presentToken filler cand).1 = cand := by
  match cand, h with
  | [c0, c1, c2, c3, c4], _ => exact tokenLanes_tokenOfLanes c0 c1 c2 c3 c4

/-- The length presented saturates at 6, which fits the port, so it is 5 for no other length. -/
theorem presentToken_len_eq_five_iff {filler : Byte} {cand : List Byte} :
    (presentToken filler cand).2 = 5#3 ↔ cand.length = 5 := by
  rw [← BitVec.toNat_inj, presentToken, BitVec.toNat_ofNat, BitVec.toNat_ofNat]
  omega

/-- Settles O22: a candidate of five bytes is the module's own token, and any other fails by its length on both
sides. -/
theorem decodeModuleComputesDecodeWord : Obligations.DecodeModuleComputesDecodeWord := by
  intro r filler cand
  by_cases hlen : cand.length = 5
  · have hlanes := tokenLanes_presentToken filler hlen
    rw [presentToken_len_eq_five_iff.2 hlen]
    cases h : decodeWord r cand with
    | ok w => exact decodeWordModule_of_ok (by rw [hlanes, h])
    | fail e tok slot => exact decodeWordModule_of_fail (by rw [hlanes, h])
  · rw [decodeWord_of_length_ne r hlen]
    exact decodeWordModule_of_length_ne r _ (mt presentToken_len_eq_five_iff.1 hlen)

end Sys2Proof

namespace Sys2Proof.Machine

/-! ## DECW -/

theorem execDecw_of_length_ne {s : State} (h : s.tlen ≠ 5#3) : execDecw s = .next (s.complete 0b10#2 0 0#3) := by
  obtain ⟨herr, hslot⟩ := decodeWordModule_of_length_ne s.rom s.t h
  simp [execDecw, herr, hslot, State.complete]

theorem execDecw_of_ok {s : State} {w : Word} (hlen : s.tlen = 5#3)
    (h : decodeWord s.rom (tokenLanes s.t) = .ok w) :
    execDecw s = .next ({ s with w := w }.complete 0b00#2 0 0#3) := by
  obtain ⟨hword, herr⟩ := decodeWordModule_of_ok h
  simp [execDecw, hlen, hword, herr]

theorem execDecw_of_invalidSymbol {s : State} {k : Nat} {slot : BitVec 3} (hlen : s.tlen = 5#3)
    (h : decodeWord s.rom (tokenLanes s.t) = .fail .invalidSymbol k slot) :
    execDecw s = .next (s.complete 0b11#2 0 slot) := by
  obtain ⟨herr, hslot⟩ := decodeWordModule_of_fail h
  simp [execDecw, hlen, herr, hslot, Failure.code, State.complete]

/-- Settles O20: DECW completes with the ports of the module on T and TLEN. -/
theorem decwFollowsItsPseudocode : Obligations.DecwFollowsItsPseudocode := by
  refine ⟨fun s => execDecw_of_length_ne, fun s k hlen hk hgood hbad => ?_, fun s i0 i1 i2 i3 i4 hr hlen ht => ?_⟩
  · exact execDecw_of_invalidSymbol hlen (decodeWord_of_lowestBadSlot (lowestBadSlot_tokenLanes hk hgood hbad))
  · refine execDecw_of_ok hlen ?_
    rw [ht, tokenOfIndices_eq, decodeWord_encodeWordModule hr]

/-- Settles O23: the T that ENCW leaves is the module's token of W, and its lanes decode to W. -/
theorem wordRoundTrip : Obligations.WordRoundTrip := by
  refine ⟨fun r w hr => decodeWord_encodeWord hr w, fun s t u hr he ht hlen hrom => ?_⟩
  cases he
  have hdec : decodeWord u.rom (tokenLanes u.t) = .ok s.w := by
    rw [hrom, ht]
    exact decodeWord_encodeWordModule hr s.w
  exact ⟨_, execDecw_of_ok hlen hdec, rfl, rfl⟩

/-- Settles O26: a failing token is of the wrong length or has a bad slot, and a failed completion writes the status
fields alone. -/
theorem decwCompletesOnEveryToken : Obligations.DecwCompletesOnEveryToken := by
  refine ⟨fun r t => ?_, fun s => ?_⟩
  · cases h : decodeWord r t with
    | ok w => exact .inl ⟨w, rfl⟩
    | fail e tok slot =>
      obtain ⟨rfl, ⟨rfl, rfl⟩ | ⟨rfl, hslot⟩⟩ := decodeWord_fail h
      · exact .inr (.inl rfl)
      · exact .inr (.inr ⟨slot, hslot, rfl⟩)
  · obtain ⟨-, hx⟩ | ⟨-, w, -, hx⟩ | ⟨-, slot, -, -, hx⟩ := execDecw_cases s
    · exact ⟨_, hx, fun _ => rfl⟩
    · exact ⟨_, hx, fun hne => absurd rfl hne⟩
    · exact ⟨_, hx, fun _ => rfl⟩

end Sys2Proof.Machine
end

section
/-! Proofs of the statements of 42_encode_buffer.md: where ENCB lays down each token and each separator (R153), how long
the text is (R154), and the text of no data (R155). -/

namespace Sys2Proof

/-! ## The words of the data -/

theorem wordsOf_getElem? {data : List Byte} {i : Nat} {hi lo : Byte} (hhi : data[2 * i]? = some hi)
    (hlo : data[2 * i + 1]? = some lo) : (wordsOf data)[i]? = some (wordOfBytes hi lo) := by
  induction i generalizing data with
  | zero =>
    match data, hhi, hlo with
    | _ :: _ :: _, rfl, rfl => rfl
  | succ i ih =>
    match data, hhi, hlo with
    | _ :: _ :: _, hhi, hlo => exact ih hhi hlo

/-! ## Where join lays down tokens and separators -/

theorem joinTokens_cons (sep tok : List Byte) (toks : List (List Byte)) :
    joinTokens sep (tok :: toks) = tok ++ joinTokens sep ([] :: toks) := by
  cases toks <;> simp [joinTokens]

/-- Each token of five characters starts 5 + L characters after the one before it. -/
theorem joinTokens_drop (sep : List Byte) {toks : List (List Byte)} (hfive : ∀ tok ∈ toks, tok.length = 5) {i : Nat}
    (hi : i < toks.length) :
    (joinTokens sep toks).drop (i * (5 + sep.length)) = joinTokens sep (toks.drop i) := by
  induction toks generalizing i with
  | nil => exact absurd hi (Nat.not_lt_zero i)
  | cons tok rest ih =>
    obtain ⟨htok, hrest⟩ := List.forall_mem_cons.1 hfive
    cases i with
    | zero => simp
    | succ i =>
      have hi : i < rest.length := Nat.lt_of_succ_lt_succ hi
      have hoffset : (i + 1) * (5 + sep.length) = tok.length + (sep.length + i * (5 + sep.length)) := by
        rw [htok]
        ring
      rw [joinTokens_cons, joinTokens_nil_cons sep (List.ne_nil_of_length_pos (Nat.zero_lt_of_lt hi)), hoffset,
        List.drop_length_add_append, List.drop_length_add_append, ih hrest hi, List.drop_succ_cons]

/-- R153: character `k` of token `i` stands at i(5+L) + k. -/
theorem joinTokens_getElem?_token (sep : List Byte) {toks : List (List Byte)} (hfive : ∀ tok ∈ toks, tok.length = 5)
    {i k : Nat} {tok : List Byte} (htok : toks[i]? = some tok) (hk : k < 5) :
    (joinTokens sep toks)[i * (5 + sep.length) + k]? = tok[k]? := by
  obtain ⟨hi, rfl⟩ := List.getElem?_eq_some_iff.1 htok
  rw [← List.getElem?_drop, joinTokens_drop sep hfive hi, List.drop_eq_getElem_cons hi, joinTokens_cons,
    List.getElem?_append_left (by rwa [hfive _ (List.getElem_mem hi)])]

/-- R153: byte `j` of the separator after token `i`, where a token follows, stands at i(5+L) + 5 + j. -/
theorem joinTokens_getElem?_sep (sep : List Byte) {toks : List (List Byte)} (hfive : ∀ tok ∈ toks, tok.length = 5)
    {i j : Nat} (hi : i + 1 < toks.length) (hj : j < sep.length) :
    (joinTokens sep toks)[i * (5 + sep.length) + 5 + j]? = sep[j]? := by
  have hi' : i < toks.length := Nat.lt_of_succ_lt hi
  have hnext : toks.drop (i + 1) ≠ [] := mt List.drop_eq_nil_iff.1 (Nat.not_le.2 hi)
  have hlen : toks[i].length = 5 := hfive _ (List.getElem_mem hi')
  rw [Nat.add_assoc, ← List.getElem?_drop, joinTokens_drop sep hfive hi', List.drop_eq_getElem_cons hi',
    joinTokens_cons, joinTokens_nil_cons sep hnext, ← hlen, ← List.getElem?_drop, List.drop_left,
    List.getElem?_append_left hj]

theorem length_of_mem_map_encodeWord {r : Rom} {words : List Word} {tok : List Byte}
    (h : tok ∈ words.map (encodeWord r)) : tok.length = 5 := by
  obtain ⟨w, -, rfl⟩ := List.mem_map.1 h
  exact encodeWord_length r w

end Sys2Proof

namespace Sys2Proof.Machine

/-! ## ENCB -/

theorem State.finishBuffer_outByte (s : State) (r : Result (List Byte)) (a : Nat) :
    (s.finishBuffer r).outByte a = (resultBytes r)[a]? :=
  Memory.read_ofBytes (resultBytes r) a

theorem execEncb_of_odd {s : State} (h : s.inlen % 2 = 1) :
    execEncb s = .next (s.finishBuffer (.fail .invalidInputLength 0 0#3)) := if_pos h

/-- The text ENCB makes of the bytes `data` with the ROM and the separator of the state. -/
def State.encoded (s : State) (data : List Byte) : List Byte :=
  joinTokens s.sepBytes ((wordsOf data).map (encodeWord s.rom))

theorem execEncb_of_inputIs {s : State} {data : List Byte} (heven : s.inlen % 2 = 0) (hdata : s.inputIs data) :
    execEncb s = .next (s.finishBuffer (.ok (s.encoded data))) := by
  have hin : s.inBytes = some data := State.inBytes_eq_some.2 hdata
  obtain ⟨hodd, -⟩ | ⟨-, data', hin', -, hx⟩ | ⟨-, hnone, -⟩ := execEncb_cases s
  · omega
  · cases hin.symm.trans hin'
    exact hx
  · cases hin.symm.trans hnone

theorem State.encoded_length {s : State} {data : List Byte} (h : data.length = s.inlen) :
    (s.encoded data).length = 5 * (s.inlen / 2) + (s.inlen / 2 - 1) * s.seplen := by
  rw [State.encoded, joinTokens_encodeWord_length, h, State.sepBytes_length]

theorem State.encoded_getElem?_token {s : State} {data : List Byte} {i k : Nat} {hi lo : Byte}
    (hhi : data[2 * i]? = some hi) (hlo : data[2 * i + 1]? = some lo) (hk : k < 5) :
    (s.encoded data)[i * (5 + s.seplen) + k]? = (encodeWord s.rom (wordOfBytes hi lo))[k]? := by
  rw [← s.sepBytes_length]
  refine joinTokens_getElem?_token s.sepBytes (fun _ => length_of_mem_map_encodeWord) ?_ hk
  rw [List.getElem?_map, wordsOf_getElem? hhi hlo, Option.map_some]

theorem State.encoded_getElem?_sep {s : State} {data : List Byte} {i j : Nat} (hi : i + 1 < data.length / 2)
    (hj : j < s.seplen) : (s.encoded data)[i * (5 + s.seplen) + 5 + j]? = some (s.sepByte j) := by
  rw [← State.sepBytes_getElem? hj, ← s.sepBytes_length]
  refine joinTokens_getElem?_sep s.sepBytes (fun _ => length_of_mem_map_encodeWord) ?_ (s.sepBytes_length.symm ▸ hj)
  rwa [List.length_map, wordsOf_length]

/-- Settles O30: OUT holds the joined tokens of the words of IN, and each token and each separator stands at its own
offset in them. -/
theorem encbFollowsItsPseudocode : Obligations.EncbFollowsItsPseudocode := by
  refine ⟨fun s => execEncb_of_odd, fun s data heven hdata => ?_⟩
  have ⟨hlen, _⟩ := hdata
  refine ⟨_, execEncb_of_inputIs heven hdata, rfl, ?_, fun i hi lo k _ hhi hlo hk => ?_, fun i j hi hj => ?_,
    fun a ha => ?_⟩
  · refine (State.encoded_length hlen).trans ?_
    split
    next hzero => simp [hzero]
    next => rfl
  · rw [State.finishBuffer_outByte]
    exact State.encoded_getElem?_token hhi hlo hk
  · rw [State.finishBuffer_outByte]
    exact State.encoded_getElem?_sep (hlen ▸ hi) hj
  · rw [State.finishBuffer_outByte]
    exact List.getElem?_eq_none ha

/-- Settles O32: a successful encoding is the joined tokens of the words, whose number is half that of the bytes. -/
theorem encodedLength : Obligations.EncodedLength := by
  refine ⟨fun r data sep out n hlen _ hout => ?_, fun s t n hlen _ he => ?_⟩
  · have hhalf : data.length / 2 = n := by omega
    obtain ⟨-, rfl⟩ := encodeBuffer_eq_ok.1 hout
    rw [wordsOf_length, joinTokens_encodeWord_length, hhalf]
    exact ⟨rfl, rfl⟩
  · have hhalf : s.inlen / 2 = n := by omega
    obtain ⟨hodd, -⟩ | ⟨-, data, -, hdata, hx⟩ | ⟨-, -, hx⟩ := execEncb_cases s
    · omega
    · cases hx.symm.trans he
      exact ⟨rfl, hhalf ▸ State.encoded_length hdata⟩
    · cases hx.symm.trans he

/-- Settles O33: no byte of IN is read, and the text of no words is empty. -/
theorem encbOfNothingIsTheEmptyText : Obligations.EncbOfNothingIsTheEmptyText := by
  intro s hlen
  have hdata : s.inputIs [] := ⟨hlen.symm, fun a ha => absurd ha (hlen ▸ Nat.not_lt_zero a)⟩
  exact execEncb_of_inputIs (by rw [hlen]) hdata

end Sys2Proof.Machine
end

section
/-! Proofs of the statements of 43_decode_buffer.md: what DECB makes of its candidates (R172 to R175), how long a
decoded text is (R176), the round trip with ENCB (R177), stray separators (R178) and the empty separator (R179). -/

namespace Sys2Proof

/-! ## The bytes of the words -/

/-- The byte pairs of the words in order, high byte first (43 R172): what `decodeCandidates` gives back, and the inverse
of `wordsOf`. -/
def bytesOf : List Word → List Byte
  | [] => []
  | w :: rest => highByte w :: lowByte w :: bytesOf rest

@[simp] theorem bytesOf_length (words : List Word) : (bytesOf words).length = 2 * words.length := by
  induction words with
  | nil => rfl
  | cons w rest ih =>
    simp only [bytesOf, List.length_cons, ih]
    ring

theorem bytesOf_getElem? {words : List Word} {j : Nat} {w : Word} (h : words[j]? = some w) :
    (bytesOf words)[2 * j]? = some (highByte w) ∧ (bytesOf words)[2 * j + 1]? = some (lowByte w) := by
  induction words generalizing j with
  | nil => cases h
  | cons w' rest ih =>
    cases j with
    | zero =>
      cases h
      exact ⟨rfl, rfl⟩
    | succ j => exact ih (j := j) h

theorem bytesOf_wordsOf : {data : List Byte} → data.length % 2 = 0 → bytesOf (wordsOf data) = data
  | [], _ => rfl
  | hi :: lo :: rest, heven => by
    have hrest : rest.length % 2 = 0 := by
      simp only [List.length_cons] at heven
      omega
    rw [wordsOf, bytesOf, highByte_wordOfBytes, lowByte_wordOfBytes, bytesOf_wordsOf hrest]

/-! ## What the candidates decode to -/

/-- R173: candidates that all decode give the byte pairs of their words. -/
theorem decodeCandidates_of_words {r : Rom} {cands : List (List Byte)} {words : List Word}
    (h : cands.map (decodeWord r) = words.map Result.ok) (j : Nat) :
    decodeCandidates r j cands = .ok (bytesOf words) := by
  induction cands generalizing words j with
  | nil =>
    obtain rfl := List.map_eq_nil_iff.1 h.symm
    rfl
  | cons cand rest ih =>
    cases words with
    | nil => cases h
    | cons w words =>
      obtain ⟨hcand, hrest⟩ := List.cons.inj h
      simp only [decodeCandidates, hcand, ih hrest, bytesOf]

/-- R174: the first candidate that fails decides, with its own failure and slot and with its index. -/
theorem decodeCandidates_of_first_failure {r : Rom} {cands : List (List Byte)} {n tok : Nat} {cand : List Byte}
    {e : Failure} {slot : BitVec 3} (hreach : reachesCandidate r cands n cand)
    (hfail : decodeWord r cand = .fail e tok slot) (j : Nat) : decodeCandidates r j cands = .fail e (j + n) slot := by
  induction cands generalizing n j with
  | nil => cases hreach.1
  | cons c rest ih =>
    obtain ⟨hn, hbefore⟩ := hreach
    cases n with
    | zero =>
      cases hn
      simp only [decodeCandidates, hfail, Nat.add_zero]
    | succ n =>
      obtain ⟨w, hw⟩ := hbefore 0 c n.succ_pos rfl
      have hrest : decodeCandidates r (j + 1) rest = .fail e (j + 1 + n) slot :=
        ih ⟨hn, fun i x hi hx => hbefore (i + 1) x (Nat.succ_lt_succ hi) hx⟩ (j + 1)
      simp only [decodeCandidates, hw, hrest, Nat.add_right_comm j 1 n, Nat.add_assoc]

/-- A candidate that is not five characters long fails the text, wherever it stands. -/
theorem decodeBuffer_fails_of_mem {r : Rom} {text sep cand : List Byte} (hmem : cand ∈ splitText sep text)
    (hlen : cand.length ≠ 5) : ∃ e tok slot, decodeBuffer r text sep = .fail e tok slot := by
  cases h : decodeBuffer r text sep with
  | ok out =>
    obtain ⟨-, hfive⟩ := decodeCandidates_ok h
    exact absurd (hfive cand hmem) hlen
  | fail e tok slot => exact ⟨e, tok, slot, rfl⟩

/-- Settles O39: a decoded text is its candidates joined again, and each of them has five characters. -/
theorem decodedLength : Obligations.DecodedLength := by
  intro r text sep out hsep hdec
  obtain ⟨hout, hfive⟩ := decodeCandidates_ok hdec
  have hK : 1 ≤ (splitText sep text).length := List.length_pos_of_ne_nil (splitText_ne_nil sep text)
  have htext : text.length = 5 * (splitText sep text).length + ((splitText sep text).length - 1) * sep.length := by
    rw [← joinTokens_length sep _ hfive, joinTokens_splitText hsep]
  have hseps : (splitText sep text).length - 1 ≤ ((splitText sep text).length - 1) * sep.length :=
    Nat.le_mul_of_pos_right _ (List.length_pos_of_ne_nil hsep)
  exact ⟨hK, hout, htext, by omega⟩

/-! ## Where the separators stand -/

theorem not_isPrefix_cons_of_notMem {sep : List Byte} (hsep : sep ≠ []) {c : Byte} (hc : c ∉ sep) (rest : List Byte) :
    ¬ sep <+: c :: rest := by
  obtain ⟨b, tail, rfl⟩ := List.exists_cons_of_ne_nil hsep
  rw [List.cons_prefix_cons]
  rintro ⟨rfl, -⟩
  exact hc List.mem_cons_self

/-- Each occurrence of a separator of one byte divides the text: the candidates before it and after it are unchanged. -/
theorem splitText_singleton_append (b : Byte) (text rest : List Byte) :
    splitText [b] (text ++ b :: rest) = splitText [b] text ++ splitText [b] rest := by
  have hfront (rest : List Byte) : splitText [b] (b :: rest) = [] :: splitText [b] rest :=
    splitText_sep_append (List.cons_ne_nil b []) rest
  induction text with
  | nil => exact hfront rest
  | cons c text ih =>
    by_cases hc : c = b
    · subst hc
      rw [List.cons_append, hfront, hfront, ih, List.cons_append]
    · have hno := not_isPrefix_cons_of_notMem (List.cons_ne_nil b []) (mt List.mem_singleton.1 hc)
      obtain ⟨cand, cands, h⟩ := List.exists_cons_of_ne_nil (splitText_ne_nil [b] text)
      rw [h, List.cons_append] at ih
      rw [List.cons_append, splitText_cons (hno _) ih, splitText_cons (hno _) h, List.cons_append]

/-- Settles O40: a stray separator leaves an empty candidate, which is not five characters long. -/
theorem straySeparatorsFail : Obligations.StraySeparatorsFail := by
  refine ⟨fun r sep rest hsep => ?_, fun r b text => ?_, fun r b text rest => ?_⟩
  · rw [decodeBuffer, splitText_sep_append hsep]
    rfl
  · have hsplit := splitText_singleton_append b text []
    exact ⟨_, hsplit, decodeBuffer_fails_of_mem (cand := []) (by simp [hsplit]) (by decide)⟩
  · have hsplit : splitText [b] (text ++ [b, b] ++ rest) = splitText [b] text ++ [] :: splitText [b] rest := by
      rw [List.append_assoc]
      exact (splitText_singleton_append b text (b :: rest)).trans
        (congrArg _ (splitText_singleton_append b [] rest))
    have hmem : [] ∈ splitText [b] (text ++ [b, b] ++ rest) := by
      rw [hsplit]
      exact List.mem_append_right _ List.mem_cons_self
    exact ⟨hmem, decodeBuffer_fails_of_mem hmem (by decide)⟩

/-! ## split after join -/

/-- Bytes that are in no separator all join the first candidate of what follows. -/
theorem splitText_append_of_disjoint {sep tok : List Byte} (hsep : sep ≠ []) (hdisj : tok.Disjoint sep)
    {rest cand : List Byte} {cands : List (List Byte)} (h : splitText sep rest = cand :: cands) :
    splitText sep (tok ++ rest) = (tok ++ cand) :: cands := by
  induction tok with
  | nil => exact h
  | cons c tok ih =>
    obtain ⟨hc, htok⟩ := List.disjoint_cons_left.1 hdisj
    exact splitText_cons (not_isPrefix_cons_of_notMem hsep hc _) (ih htok)

/-- Tokens that share no byte with the separator are the candidates of their join. -/
theorem splitText_joinTokens {sep : List Byte} (hsep : sep ≠ []) {toks : List (List Byte)} (hne : toks ≠ [])
    (hdisj : ∀ tok ∈ toks, tok.Disjoint sep) : splitText sep (joinTokens sep toks) = toks := by
  induction toks with
  | nil => exact absurd rfl hne
  | cons tok rest ih =>
    obtain ⟨htok, hrest⟩ := List.forall_mem_cons.1 hdisj
    have hafter : splitText sep (joinTokens sep ([] :: rest)) = [] :: rest := by
      by_cases hr : rest = []
      · subst hr
        exact splitText_nil sep
      · rw [joinTokens_nil_cons sep hr, splitText_sep_append hsep, ih hr hrest]
    rw [joinTokens_cons, splitText_append_of_disjoint hsep htok hafter, List.append_nil]

/-! ## The round trip -/

theorem encodeWord_subset_symbols (r : Rom) (w : Word) : encodeWord r w ⊆ r.symbols := by
  have hcons (i : BitVec 4) : r.cons i ∈ r.symbols := List.mem_append_left _ (r.cons_mem i)
  have hvowel (i : BitVec 2) : r.vowel i ∈ r.symbols := List.mem_append_right _ (r.vowel_mem i)
  simp [encodeWord, hcons, hvowel]

/-- R177: the tokens of the words are the candidates of their text, and each decodes to its word. -/
theorem decodeBuffer_joinTokens {r : Rom} (hr : r.legal = true) {sep : List Byte} (hsep : sep ≠ [])
    (hforeign : Machine.separatorForeign r sep) {words : List Word} (hwords : words ≠ []) :
    decodeBuffer r (joinTokens sep (words.map (encodeWord r))) sep = .ok (bytesOf words) := by
  have hdisj : ∀ tok ∈ words.map (encodeWord r), tok.Disjoint sep := by
    intro tok htok c hc hcsep
    obtain ⟨w, -, rfl⟩ := List.mem_map.1 htok
    exact hforeign c hcsep (encodeWord_subset_symbols r w hc)
  have hdec : (words.map (encodeWord r)).map (decodeWord r) = words.map Result.ok := by
    rw [List.map_map]
    exact List.map_congr_left fun w _ => decodeWord_encodeWord hr w
  rw [decodeBuffer, splitText_joinTokens hsep (mt List.map_eq_nil_iff.1 hwords) hdisj]
  exact decodeCandidates_of_words hdec 0

/-- The text of whole words, at least one of them, decodes to their bytes. -/
theorem decodeBuffer_encoded {r : Rom} {data sep : List Byte} (hr : r.legal = true) (heven : data.length % 2 = 0)
    (htwo : 2 ≤ data.length) (hsep : sep ≠ []) (hforeign : Machine.separatorForeign r sep) :
    decodeBuffer r (joinTokens sep ((wordsOf data).map (encodeWord r))) sep = .ok data := by
  have hwords : wordsOf data ≠ [] := by
    refine List.ne_nil_of_length_pos ?_
    rw [wordsOf_length]
    omega
  rw [decodeBuffer_joinTokens hr hsep hforeign hwords, bytesOf_wordsOf heven]

/-- Settles O42: split recovers the tokens that join laid down, since no separator byte is a symbol. -/
theorem bufferRoundTrip : Obligations.BufferRoundTrip := fun _ _ _ hr heven htwo hsep hforeign =>
  ⟨_, encodeBuffer_eq_ok.2 ⟨heven, rfl⟩, decodeBuffer_encoded hr heven htwo hsep hforeign⟩

end Sys2Proof

namespace Sys2Proof.Machine

/-! ## DECB -/

theorem State.sepBytes_ne_nil {s : State} (h : 1 ≤ s.seplen) : s.sepBytes ≠ [] :=
  List.ne_nil_of_length_pos (s.sepBytes_length.symm ▸ h)

theorem execDecb_of_inputIs {s : State} {text : List Byte} {res : Result (List Byte)} (hsep : 1 ≤ s.seplen)
    (htext : s.inputIs text) (hres : decodeBuffer s.rom text s.sepBytes = res) :
    execDecb s = .next (s.finishBuffer res) := by
  subst hres
  have hin : s.inBytes = some text := State.inBytes_eq_some.2 htext
  obtain ⟨hzero, -⟩ | ⟨-, text', hin', -, hx⟩ | ⟨-, hnone, -⟩ := execDecb_cases s
  · omega
  · cases hin.symm.trans hin'
    exact hx
  · cases hin.symm.trans hnone

/-- Settles O36: OUT holds the byte pairs of the candidates' words. -/
theorem decbLaysDownTheWords : Obligations.DecbLaysDownTheWords := by
  intro s text words hsep htext hwords
  have hdec : decodeBuffer s.rom text s.sepBytes = .ok (bytesOf words) := decodeCandidates_of_words hwords 0
  refine ⟨_, execDecb_of_inputIs hsep htext hdec, rfl, bytesOf_length words, fun j w hw => ?_, fun a ha => ?_⟩
  · rw [State.finishBuffer_outByte, State.finishBuffer_outByte]
    exact bytesOf_getElem? hw
  · rw [State.finishBuffer_outByte]
    exact List.getElem?_eq_none ha

/-- Settles O37: the candidates before the failing one decode, and none after it is tried. -/
theorem decbReportsTheFirstFailure : Obligations.DecbReportsTheFirstFailure := by
  intro s text cand j tok e slot hsep htext hcand hfail hbefore
  have hdec := decodeCandidates_of_first_failure ⟨hcand, hbefore⟩ hfail 0
  rw [Nat.zero_add] at hdec
  exact execDecb_of_inputIs hsep htext hdec

/-- Settles O38: the empty text has one candidate, which is empty. -/
theorem decbOfTheEmptyTextFails : Obligations.DecbOfTheEmptyTextFails := by
  intro s hsep hlen
  have htext : s.inputIs [] := ⟨hlen.symm, fun a ha => absurd ha (hlen ▸ Nat.not_lt_zero a)⟩
  exact decbReportsTheFirstFailure s [] [] 0 0 .invalidLength 0#3 hsep htext rfl rfl
    fun i _ hi => absurd hi (Nat.not_lt_zero i)

/-- Settles O41: the completion draws its results within their ranges and lists no byte of OUT. -/
theorem decbWithEmptySeparatorCompletes : Obligations.DecbWithEmptySeparatorCompletes := fun s hsep =>
  ⟨s.completeUnspecified, if_pos hsep, rfl, rfl, ⟨rfl, rfl, rfl, rfl, rfl, rfl, rfl, rfl⟩, fun _ => rfl,
    Capacity.holds_fit _ _, Capacity.holds_fit _ _, rfl⟩

/-! ## ENCB, the copy of OUT to IN, and DECB -/

/-- The state after the host has copied OUT[0..OUTLEN-1] to IN and OUTLEN to INLEN (43 R177). -/
def State.copyOutToIn (s : State) : State := { s with inBuf := s.outBuf, inlen := s.outlen }

theorem State.copyOutToIn_inByte (s : State) (a : Nat) : s.copyOutToIn.inByte a = s.outByte a := rfl

/-- The copied result of a buffer command is the operand of the next one. -/
theorem State.inputIs_copyOutToIn_finishBuffer (s : State) (r : Result (List Byte)) :
    (s.finishBuffer r).copyOutToIn.inputIs (resultBytes r) :=
  ⟨rfl, fun a _ => by rw [State.copyOutToIn_inByte, State.finishBuffer_outByte]⟩

/-- Settles O43: the text that ENCB leaves in OUT is the text that DECB reads after the copy. -/
theorem bufferRoundTripInCommands : Obligations.BufferRoundTripInCommands := by
  intro s t data hr hdata heven htwo hsep hforeign henc
  have ⟨hlen, hbytes⟩ := hdata
  cases (execEncb_of_inputIs heven hdata).symm.trans henc
  have hdec : decodeBuffer s.rom (s.encoded data) s.sepBytes = .ok data :=
    decodeBuffer_encoded hr (hlen ▸ heven) (hlen ▸ htwo) (State.sepBytes_ne_nil hsep) hforeign
  refine ⟨_, execDecb_of_inputIs (s := State.copyOutToIn _) hsep (s.inputIs_copyOutToIn_finishBuffer _) hdec, rfl,
    hlen, fun a ha => ?_⟩
  rw [State.finishBuffer_outByte, hbytes a ha]
  rfl

end Sys2Proof.Machine
end

section
/-! Proofs of the statements of 44_command_and_host.md: START, completion and the idle block (R192, R193, R196, R197,
R198), the host's writes and reads (R191, R194, R195), what each command never changes (R199), and the host's duties
with what their breach gives (R200). -/

namespace Sys2Proof.Machine

/-! ## Whose move it is -/

/-- The next move is the block's, one of the host's operations, or the reset event. -/
theorem State.next_move (s : State) : s.blockNext ∨ (∃ x, s.hostNext x) ∨ s.resetNext := by
  cases h : s.turns with
  | nil => exact .inl (.inl h)
  | cons turn rest =>
    cases turn with
    | block => exact .inl (.inr ⟨rest, h⟩)
    | host x => exact .inr (.inl ⟨x, rest, h⟩)
    | reset => exact .inr (.inr ⟨rest, h⟩)

theorem State.not_resetNext_of_blockNext {s : State} (h : s.blockNext) : ¬ s.resetNext := by
  obtain h | ⟨rest, h⟩ := h <;> simp [State.resetNext, h]

theorem State.not_resetNext_of_hostNext {s : State} {x : HostOp} (h : s.hostNext x) : ¬ s.resetNext := by
  obtain ⟨rest, h⟩ := h
  simp [State.resetNext, h]

theorem State.not_blockNext_of_hostNext {s : State} {x : HostOp} (h : s.hostNext x) : ¬ s.blockNext := by
  obtain ⟨rest, h⟩ := h
  simp [State.blockNext, h]

/-! ## The block's move -/

/-- The block's move is its turn, after the move is taken off the list; an empty list stays empty. -/
theorem step_of_blockNext {s : State} (h : s.blockNext) : step s = State.blockTurn { s with turns := s.turns.tail } := by
  obtain h | ⟨rest, h⟩ := h
  · cases s
    cases h
    rfl
  · simp [step, h]

theorem step_of_blockNext_of_idle {s : State} (h : s.blockNext) (hb : s.busy = false) :
    step s = .next { s with turns := s.turns.tail } := by
  simp [step_of_blockNext h, State.blockTurn, hb]

theorem step_of_blockNext_of_busy {s : State} (h : s.blockNext) (hb : s.busy = true) :
    step s = exec s.selected { s with turns := s.turns.tail } :=
  (step_of_blockNext h).trans (if_pos hb)

/-- Every completion ends BUSY, sets DONE and leaves OP and the moves to come. -/
theorem Completion.handshake {i : Instr} {s t : State} (h : Completion s i t) :
    t.busy = false ∧ t.done = true ∧ t.op = s.op ∧ t.turns = s.turns := by
  cases h <;> exact ⟨rfl, rfl, rfl, rfl⟩

theorem State.inBytes_ne_none_of_inputWritten {s : State} (h : s.inputWritten) : s.inBytes ≠ none := by
  intro hnone
  obtain ⟨a, ha, hbyte⟩ := State.inBytes_eq_none.1 hnone
  exact h a ha hbyte

/-- Only a missing input byte keeps a command from completing. -/
theorem exec_completes {i : Instr} {s : State} (h : s.inputWritten) : ∃ t, exec i s = .next t := by
  have hin := State.inBytes_ne_none_of_inputWritten h
  cases i with
  | encw => exact ⟨_, rfl⟩
  | decw => exact ⟨_, rfl⟩
  | encb =>
    obtain ⟨-, hx⟩ | ⟨-, data, -, -, hx⟩ | ⟨-, hnone, -⟩ := execEncb_cases s
    exacts [⟨_, hx⟩, ⟨_, hx⟩, absurd hnone hin]
  | decb =>
    obtain ⟨-, hx⟩ | ⟨-, text, -, -, hx⟩ | ⟨-, hnone, -⟩ := execDecb_cases s
    exacts [⟨_, hx⟩, ⟨_, hx⟩, absurd hnone hin]

/-! ## The host's move -/

theorem State.hostStart_of_idle {s : State} (hb : s.busy = false) : s.hostStart = s.accept := by
  simp [State.hostStart, hb]

theorem State.hostWrite_of_idle {s : State} {x : HostWrite} (hb : s.busy = false) (hl : x.located s.cap = true)
    (hh : x.lengthHeld s.cap = true) : s.hostWrite x = .next (s.applyWrite x) := by
  simp [State.hostWrite, hb, hl, hh]

theorem State.hostWrite_of_not_located {s : State} {x : HostWrite} (hl : x.located s.cap = false) :
    s.hostWrite x = .fault .noSuchIndex := if_pos hl

theorem State.hostWrite_of_not_lengthHeld {s : State} {x : HostWrite} (hb : s.busy = false)
    (hl : x.located s.cap = true) (hh : x.lengthHeld s.cap = false) : s.hostWrite x = .refused .lengthAboveCapacity := by
  simp [State.hostWrite, hb, hl, hh]

/-- A write without an effect gives no sign of it, whatever BUSY is. -/
theorem State.hostWrite_of_no_effect {s : State} {x : HostWrite} (hl : x.located s.cap = true)
    (hh : x.lengthHeld s.cap = true) (he : s.applyWrite x = s) : s.hostWrite x = .next s := by
  cases hb : s.busy with
  | true => exact State.hostWrite_of_busy hl hb
  | false => rw [State.hostWrite_of_idle hb hl hh, he]

/-- A write of an existing location whose length its buffer can hold goes on. -/
theorem State.hostWrite_of_located {s : State} {x : HostWrite} (hl : x.located s.cap = true)
    (hh : x.lengthHeld s.cap = true) : ∃ t, s.hostWrite x = .next t := by
  cases hb : s.busy with
  | true => exact ⟨s, State.hostWrite_of_busy hl hb⟩
  | false => exact ⟨_, State.hostWrite_of_idle hb hl hh⟩

theorem State.readable_of_idle {s : State} (hb : s.busy = false) (x : HostRead) : s.readable x = s.settled x := by
  simp [State.readable, hb]

theorem State.readable_of_always (s : State) {x : HostRead} (h : x.always = true) : s.readable x = s.settled x := by
  simp [State.readable, h]

theorem State.readable_of_busy {s : State} {x : HostRead} (hb : s.busy = true) (h : x.always = false) :
    s.readable x = none := by
  simp [State.readable, hb, h]

/-- What has no value while BUSY is 0 has none while it is 1. -/
theorem State.readable_of_unsettled {s : State} {x : HostRead} (h : s.settled x = none) : s.readable x = none := by
  simp [State.readable, h]

theorem HostRead.always_eq_true_iff {x : HostRead} : x.always = true ↔ x = .busy ∨ x = .done := by
  cases x <;> simp [HostRead.always]

theorem State.hostRead_of_not_located {s : State} {x : HostRead} (hl : x.located s.cap = false) :
    s.hostRead x = .fault .noSuchIndex := if_pos hl

theorem State.hostRead_of_readable {s : State} {x : HostRead} {v : Nat} (hl : x.located s.cap = true)
    (hv : s.readable x = some v) : s.hostRead x = .next (s.answer x v) := by
  simp [State.hostRead, hl, hv]

theorem State.hostRead_of_unreadable {s : State} {x : HostRead} (hl : x.located s.cap = true)
    (hv : s.readable x = none) : s.hostRead x = .next (s.answerFree x (x.narrow s.cap)) := by
  simp [State.hostRead, hl, hv]

/-- A host operation that goes on named an existing location. -/
theorem HostOp.located_of_hostTurn {s t : State} {x : HostOp} (h : s.hostTurn x = .next t) : x.located s.cap = true := by
  cases x with
  | write x => exact (State.hostWrite_cases h).1
  | read x => exact (State.hostRead_cases h).1
  | start => rfl

/-- A step of the host while a command runs changes the moves to come, the host's record and the draw count alone. -/
theorem step_of_hostNext_of_busy {s t : State} {x : HostOp} (hx : s.hostNext x) (hb : s.busy = true)
    (hstep : step s = .next t) :
    ∃ rest answers draws, t = { s with turns := rest, answers := answers, draws := draws } := by
  obtain ⟨rest, hturns⟩ := hx
  rw [step_of_host hturns] at hstep
  obtain ⟨answers, draws, he⟩ :=
    State.hostTurn_of_busy (s := { s with turns := rest }) (HostOp.located_of_hostTurn hstep) hb
  cases he.symm.trans hstep
  exact ⟨rest, answers, draws, rfl⟩

/-- No host operation marks the run or clears its mark. -/
theorem State.offSpec_of_hostTurn {s t : State} {x : HostOp} (h : s.hostTurn x = .next t) : t.offSpec = s.offSpec := by
  cases x with
  | write x =>
    obtain ⟨-, ⟨-, rfl⟩ | ⟨-, -, rfl⟩⟩ := State.hostWrite_cases h
    · rfl
    · exact (s.applyWrite_frame x).2.2.2
  | read x => obtain ⟨-, ⟨v, -, rfl⟩ | ⟨-, rfl⟩⟩ := State.hostRead_cases h <;> rfl
  | start =>
    cases h
    obtain ⟨-, h⟩ | ⟨-, h⟩ := s.hostStart_cases <;> rw [h]
    rfl

/-! ## START and completion -/

/-- Settles O4: a START while BUSY is the identity, and any other host operation that goes on writes only the host's own
record. -/
theorem startWhileBusyIsIgnored : Obligations.StartWhileBusyIsIgnored := by
  refine ⟨fun s rest hturns hb => ?_, fun s t x hx hb hstep => ?_⟩
  · exact (step_of_host hturns).trans (congrArg Host.Outcome.next (State.hostStart_of_busy hb))
  · obtain ⟨rest, answers, draws, rfl⟩ := step_of_hostNext_of_busy hx hb hstep
    exact ⟨⟨rfl, rfl, rfl, rfl, rfl, rfl, rfl, rfl⟩, rfl, rfl, rfl, rfl, rfl, rfl, rfl⟩

/-- Settles O3: the START of an idle block is `State.accept`, and while BUSY the operands stay, by O4. -/
theorem acceptedStartOnlySetsBusyAndClearsDone : Obligations.AcceptedStartOnlySetsBusyAndClearsDone := by
  refine ⟨fun s rest hturns hb => ?_, fun s t x hx hb hstep => ?_⟩
  · exact (step_of_host hturns).trans (congrArg Host.Outcome.next (State.hostStart_of_idle hb))
  · exact (startWhileBusyIsIgnored.2 s t x hx hb hstep).1

/-- Settles O5: each of the four forms of a completion ends the handshake. -/
theorem completionClearsBusyAndSetsDone : Obligations.CompletionClearsBusyAndSetsDone :=
  fun _ _ _ he => (exec_completion he).handshake

/-- The decoder gives the operation OP selects. -/
theorem State.decode_op (s : State) (bytes : List Byte) :
    decode (s.op.zeroExtend 8 :: bytes) = .ok (s.selected, bytes) := by
  have h := decode_encode_append s.selected bytes
  rwa [encode, ← s.op_eq_encodeOp_selected] at h

/-- Settles O6: the decoded instruction is the selected one. -/
theorem stepRunsTheDecodedInstruction : Obligations.StepRunsTheDecodedInstruction := by
  intro s i bytes hb hdecode
  cases (s.decode_op bytes).symm.trans hdecode
  refine ⟨fun hturns => step_of_running hturns hb, fun rest hturns => ?_⟩
  rw [step_of_blockNext_of_busy (.inr ⟨rest, hturns⟩) hb, hturns, List.tail_cons]

/-- Settles O7: the turn of a block that is not BUSY gives the state back. -/
theorem idleBlockDoesNothing : Obligations.IdleBlockDoesNothing :=
  fun _ hb hblock => step_of_blockNext_of_idle hblock hb

/-- Settles O8: with its input written the selected command goes on, and going on is completing. -/
theorem everyCommandCompletes : Obligations.EveryCommandCompletes := by
  intro s hb hblock hin
  obtain ⟨t, he⟩ := exec_completes (i := s.selected) (s := { s with turns := s.turns.tail }) hin
  obtain ⟨hbusy, hdone, -, -⟩ := (exec_completion he).handshake
  exact ⟨t, (step_of_blockNext_of_busy hblock hb).trans he, hbusy, hdone⟩

/-! ## The host's writes -/

/-- A write while BUSY is 0 has its effect. -/
theorem step_of_idle_write {s : State} {rest : List Turn} {x : HostWrite} (hturns : s.turns = .host (.write x) :: rest)
    (hb : s.busy = false) (hl : x.located s.cap = true) (hh : x.lengthHeld s.cap = true) :
    step s = .next (State.applyWrite { s with turns := rest } x) :=
  (step_of_host hturns).trans (State.hostWrite_of_idle hb hl hh)

/-- Settles O10: a write of an existing location leaves a BUSY block as it is. -/
theorem writesWhileBusyAreDropped : Obligations.WritesWhileBusyAreDropped :=
  fun _ _ _ hturns hb hl => (step_of_host hturns).trans (State.hostWrite_of_busy hl hb)

/-- Settles O11: every register exists, and a length its buffer can hold is not refused. -/
theorem idleRegisterWritesTakeEffect : Obligations.IdleRegisterWritesTakeEffect := fun _ _ hb =>
  ⟨fun _ hturns => step_of_idle_write hturns hb rfl rfl, fun _ hturns => step_of_idle_write hturns hb rfl rfl,
    fun _ hturns => step_of_idle_write hturns hb rfl rfl, fun _ hturns => step_of_idle_write hturns hb rfl rfl,
    fun _ hheld hturns => step_of_idle_write hturns hb rfl hheld,
    fun _ hheld hturns => step_of_idle_write hturns hb rfl hheld⟩

theorem State.inByte_applyWrite (s : State) (a k : Nat) (b : Byte) :
    (s.applyWrite (.inByte a b)).inByte k = if k = a then some b else s.inByte k :=
  Memory.read_write .inBuf s.inBuf a k b

theorem State.sepByte_applyWrite (s : State) (j k : Nat) (b : Byte) :
    (s.applyWrite (.sep j b)).sepByte k = if k = j then b else s.sepByte k := by
  have h := Memory.read_write .sep s.sep j k b
  rw [State.sepByte_read] at h
  refine Option.some.inj (((s.applyWrite (.sep j b)).sepByte_read k).symm.trans (h.trans ?_))
  split <;> rfl

/-- Settles O12: a byte write is a write of one address of one memory. -/
theorem idleByteWritesReachOneByte : Obligations.IdleByteWritesReachOneByte :=
  ⟨fun _ _ a b hb hl hturns =>
      ⟨_, step_of_idle_write hturns hb hl rfl, rfl, fun k => State.inByte_applyWrite _ a k b⟩,
    fun _ _ j b hb hl hturns =>
      ⟨_, step_of_idle_write hturns hb hl rfl, rfl, fun k => State.sepByte_applyWrite _ j k b⟩⟩

/-- Settles O13: a write of a read-only field has no effect, so it makes no difference whether BUSY drops it. -/
theorem readOnlyFieldsIgnoreHostWrites : Obligations.ReadOnlyFieldsIgnoreHostWrites := by
  intro s rest x hturns hx
  rw [step_of_host hturns]
  obtain ⟨n, rfl⟩ | ⟨v, rfl⟩ | ⟨v, rfl⟩ | ⟨v, rfl⟩ | ⟨n, rfl⟩ | ⟨v, rfl⟩ | ⟨a, b, rfl⟩ := hx <;>
    exact State.hostWrite_of_no_effect rfl rfl rfl

/-! ## The host's reads -/

/-- A read of a location with a value returns it and changes nothing else. -/
theorem step_of_readable {s : State} {rest : List Turn} {x : HostRead} {v : Nat}
    (hturns : s.turns = .host (.read x) :: rest) (hl : x.located s.cap = true) (hv : s.readable x = some v) :
    step s = .next { s with turns := rest, answers := ⟨x, v⟩ :: s.answers } :=
  (step_of_host hturns).trans (State.hostRead_of_readable hl hv)

/-- Settles O14: while BUSY is 0 a read returns the settled value, which is the register or the byte. -/
theorem idleReadsReturnTheRegister : Obligations.IdleReadsReturnTheRegister := by
  intro s rest x v hb hturns hx
  suffices h : x.located s.cap = true ∧ s.settled x = some v from
    step_of_readable hturns h.1 ((State.readable_of_idle hb x).trans h.2)
  obtain ⟨rfl, rfl⟩ | ⟨rfl, rfl⟩ | ⟨rfl, rfl⟩ | ⟨rfl, rfl⟩ | ⟨rfl, rfl⟩ | ⟨rfl, rfl⟩ | ⟨rfl, rfl⟩ | ⟨rfl, rfl⟩ |
    ⟨rfl, rfl⟩ | ⟨rfl, rfl⟩ | ⟨j, hl, rfl, rfl⟩ | ⟨a, b, hl, rfl, hbyte, rfl⟩ | ⟨a, b, hl, hlen, rfl, hbyte, rfl⟩ := hx
  iterate 10 exact ⟨rfl, rfl⟩
  · exact ⟨hl, rfl⟩
  · exact ⟨hl, by simp [State.settled, hbyte]⟩
  · exact ⟨hl, by simp [State.settled, hlen, hbyte]⟩

/-- Settles O15: BUSY and DONE are the reads that are always answered, with the bit as a number. -/
theorem busyAndDoneAreReadableAtAnyTime : Obligations.BusyAndDoneAreReadableAtAnyTime := by
  have bit (b : Bool) : some b.toNat = some (if b then 1 else 0) := by cases b <;> rfl
  intro s rest
  refine ⟨fun hturns => ?_, fun hturns => ?_⟩
  · exact step_of_readable hturns rfl ((s.readable_of_always rfl).trans (bit s.busy))
  · exact step_of_readable hturns rfl ((s.readable_of_always rfl).trans (bit s.done))

/-- Settles O16: in each of the three cases the read finds no value and draws one. -/
theorem unspecifiedReadsAreFreeDraws : Obligations.UnspecifiedReadsAreFreeDraws := by
  intro s rest x hl hturns hx
  have hv : s.readable x = none := by
    obtain ⟨hb, hbusy, hdone⟩ | ⟨a, rfl, hlen⟩ | ⟨a, rfl, hbyte⟩ := hx
    · have hx : x.always = false := Bool.eq_false_iff.2 (by simp [HostRead.always_eq_true_iff, hbusy, hdone])
      exact State.readable_of_busy hb hx
    · exact State.readable_of_unsettled (if_neg (Nat.not_lt.2 hlen))
    · exact State.readable_of_unsettled (by simp [State.settled, hbyte])
  exact (step_of_host hturns).trans (State.hostRead_of_unreadable hl hv)

/-! ## What each command never changes -/

/-- No completion writes SEPLEN, INLEN, or a word register that is not its command's. -/
theorem Completion.registers {i : Instr} {s t : State} (h : Completion s i t) :
    t.seplen = s.seplen ∧ t.inlen = s.inlen ∧ (i ≠ .decw → t.w = s.w) ∧ (i ≠ .encw → t.t = s.t ∧ t.tlen = s.tlen) := by
  cases h with
  | encw => exact ⟨rfl, rfl, fun _ => rfl, fun hne => absurd rfl hne⟩
  | decw => exact ⟨rfl, rfl, fun hne => absurd rfl hne, fun _ => ⟨rfl, rfl⟩⟩
  | buffer | unspecified => exact ⟨rfl, rfl, fun _ => rfl, fun _ => ⟨rfl, rfl⟩⟩

theorem Completion.w_of_failed {i : Instr} {s t : State} (h : Completion s i t) (hi : i = .decw)
    (herr : t.err ≠ 0b00#2) : t.w = s.w := by
  subst hi
  cases h with
  | decw w err slot hw => exact not_imp_comm.1 hw herr
  | buffer => rfl

theorem Completion.out_of_isWordCommand {i : Instr} {s t : State} (h : Completion s i t) (hi : isWordCommand i) :
    t.outlen = s.outlen ∧ t.outBuf = s.outBuf := by
  cases h with
  | encw | decw => exact ⟨rfl, rfl⟩
  | buffer r hi' => obtain rfl | rfl := hi' <;> simp [isWordCommand] at hi
  | unspecified => simp [isWordCommand] at hi

/-- Settles O44: R199's table is the frame of the four forms of a completion; a buffer left alone keeps its bytes. -/
theorem commandsLeaveTheRestAlone : Obligations.CommandsLeaveTheRestAlone := by
  intro i s t he
  have hc := exec_completion he
  obtain ⟨-, -, hop, -⟩ := hc.handshake
  obtain ⟨hin, hsep⟩ := hc.inBuf_sep
  obtain ⟨hseplen, hinlen, hw, ht⟩ := hc.registers
  refine ⟨hop, hsep, hseplen, hinlen, hin, hc.rom, hc.cap, fun a => ?_, fun j => ?_, hw, hc.w_of_failed, ht,
    fun hi => ?_⟩
  · rw [State.inByte, hin, State.inByte]
  · rw [State.sepByte, hsep, State.sepByte]
  · obtain ⟨hlen, hbuf⟩ := hc.out_of_isWordCommand hi
    exact ⟨hlen, hbuf, fun a => by rw [State.outByte, hbuf, State.outByte]⟩

/-! ## The host's duties -/

theorem execEncb_of_inBytes_none {s : State} (heven : s.inlen % 2 = 0) (h : s.inBytes = none) :
    execEncb s = .fault .unwrittenInput := by
  simp [execEncb, heven, h]

theorem execDecb_of_inBytes_none {s : State} (hsep : 1 ≤ s.seplen) (h : s.inBytes = none) :
    execDecb s = .fault .unwrittenInput := by
  simp [execDecb, Nat.one_le_iff_ne_zero.1 hsep, h]

/-- Settles O34: one byte without a value leaves the whole operand without one. -/
theorem unwrittenInputIsAFault : Obligations.UnwrittenInputIsAFault := by
  intro s a ha hbyte
  have hin : s.inBytes = none := State.inBytes_eq_none.2 ⟨a, ha, hbyte⟩
  exact ⟨fun heven => execEncb_of_inBytes_none heven hin, fun hsep => execDecb_of_inBytes_none hsep hin⟩

/-- Settles O18: a length is refused for its size alone, and an absent index faults before BUSY is looked at. -/
theorem breachesOfTheCapacitiesStop : Obligations.BreachesOfTheCapacitiesStop := fun _ _ =>
  ⟨fun _ hb hh hturns => (step_of_host hturns).trans (State.hostWrite_of_not_lengthHeld hb rfl hh),
    fun _ hb hh hturns => (step_of_host hturns).trans (State.hostWrite_of_not_lengthHeld hb rfl hh),
    fun _ _ hl hturns => (step_of_host hturns).trans (State.hostWrite_of_not_located hl),
    fun _ hl hturns => (step_of_host hturns).trans (State.hostRead_of_not_located hl),
    fun _ _ hl hturns => (step_of_host hturns).trans (State.hostWrite_of_not_located hl),
    fun _ hl hturns => (step_of_host hturns).trans (State.hostRead_of_not_located hl),
    fun _ hl hturns => (step_of_host hturns).trans (State.hostRead_of_not_located hl)⟩

theorem step_of_resetNext {s : State} (h : s.resetNext) :
    ∃ rest, step s = .next (State.resetEvent { s with turns := rest }) := by
  obtain ⟨rest, h⟩ := h
  exact ⟨rest, by simp [step, h]⟩

/-- Settles O50: each kind of move goes on, given the one duty it depends on. -/
theorem onlyABrokenDutyStopsTheMachine : Obligations.OnlyABrokenDutyStopsTheMachine := by
  intro s hin hwrite hread
  obtain hblock | ⟨x, hx⟩ | hreset := s.next_move
  · cases hb : s.busy with
    | false => exact ⟨_, step_of_blockNext_of_idle hblock hb⟩
    | true =>
      rw [safeStep, step_of_blockNext_of_busy hblock hb]
      exact exec_completes hin
  · have ⟨rest, hturns⟩ := hx
    rw [safeStep, step_of_host hturns]
    cases x with
    | write x => exact State.hostWrite_of_located (hwrite x hx).1 (hwrite x hx).2
    | read x =>
      obtain ⟨answers, draws, h⟩ := State.hostRead_of_located (s := { s with turns := rest }) (hread x hx)
      exact ⟨_, h⟩
    | start => exact ⟨_, rfl⟩
  · obtain ⟨rest, h⟩ := step_of_resetNext hreset
    exact ⟨_, h⟩

/-! ## The mark of a DECB with the empty separator -/

/-- A command marks the run exactly where it is DECB with the empty separator. -/
theorem offSpec_of_exec {i : Instr} {s t : State} (he : exec i s = .next t) :
    t.offSpec = true ↔ s.offSpec = true ∨ emptySeparator i s := by
  cases i with
  | encw | decw | encb =>
    have hmark : t.offSpec = s.offSpec := by cases exec_completion he <;> rfl
    simp [hmark, emptySeparator]
  | decb =>
    obtain ⟨hsep, hx⟩ | ⟨hsep, text, -, -, hx⟩ | ⟨-, -, hx⟩ := execDecb_cases s <;> cases hx.symm.trans he
    · simp [State.completeUnspecified, emptySeparator, hsep]
    · simp [emptySeparator, hsep]

/-- A step marks the run where it completes a DECB with the empty separator, and only a reset clears the mark. -/
theorem step_offSpec {s t : State} (hstep : step s = .next t) :
    t.offSpec = true ↔
      ¬ s.resetNext ∧ (s.offSpec = true ∨ (s.blockNext ∧ s.busy = true ∧ s.op = 0b11#2 ∧ s.seplen = 0)) := by
  obtain hblock | ⟨x, hx⟩ | hreset := s.next_move
  · have hnot := State.not_resetNext_of_blockNext hblock
    cases hb : s.busy with
    | false =>
      cases (step_of_blockNext_of_idle hblock hb).symm.trans hstep
      simp [hnot]
    | true =>
      rw [step_of_blockNext_of_busy hblock hb] at hstep
      rw [offSpec_of_exec hstep, emptySeparator, State.selected_eq_decb]
      simp [hnot, hblock]
  · have hnot := State.not_resetNext_of_hostNext hx
    have hnot' := State.not_blockNext_of_hostNext hx
    obtain ⟨rest, hturns⟩ := hx
    rw [step_of_host hturns] at hstep
    simp [State.offSpec_of_hostTurn hstep, hnot, hnot']
  · obtain ⟨rest, h⟩ := step_of_resetNext hreset
    cases h.symm.trans hstep
    simp [hreset]

theorem dutyStep_of_emptySeparatorDue {s : State} (h : s.emptySeparatorDue = true) :
    dutyStep s = .refused .emptySeparator := if_pos h

theorem dutyStep_of_not_emptySeparatorDue {s : State} (h : ¬ s.emptySeparatorDue = true) : dutyStep s = step s :=
  if_neg h

/-- Settles O59: dutyStep refuses the one step that marks the run, and is step elsewhere. -/
theorem dutyStepRefusesWhatTheMarkRecords : Obligations.DutyStepRefusesWhatTheMarkRecords := by
  refine ⟨fun s hblock hb hop hsep => ?_, fun s h => ?_, fun s t => step_offSpec, fun s t hmark hstep => ?_⟩
  · have hstep : step s = .next (State.completeUnspecified { s with turns := s.turns.tail }) := by
      rw [step_of_blockNext_of_busy hblock hb, State.selected_eq_decb.2 hop]
      exact if_pos hsep
    exact ⟨dutyStep_of_emptySeparatorDue (State.emptySeparatorDue_iff.2 ⟨hblock, hb, hop, hsep⟩), _, hstep, rfl⟩
  · exact dutyStep_of_not_emptySeparatorDue (mt State.emptySeparatorDue_iff.1 h)
  · obtain ⟨-, hrefused⟩ | ⟨hdue, hsame⟩ := dutyStep_cases s
    · cases hrefused.symm.trans hstep
    · have hnot := mt State.emptySeparatorDue_iff.2 (Bool.eq_false_iff.1 hdue)
      rw [Bool.eq_false_iff, Ne, step_offSpec (hsame.symm.trans hstep)]
      simp [hmark, hnot]

end Sys2Proof.Machine
end

section
/-! Proofs of the statements of 60_exceptions.md: which command raises each failure and what it records (R211, R212), and
that a failed command leaves no result (R217). -/

namespace Sys2Proof

/-- R211, R174: a text fails by its first failing candidate, whose length is wrong or whose lowest bad slot is the one
reported. -/
theorem decodeBuffer_fail_reason {r : Rom} {text sep : List Byte} {e : Failure} {tok : Nat} {slot : BitVec 3}
    (h : decodeBuffer r text sep = .fail e tok slot) :
    ∃ cand, reachesCandidate r (splitText sep text) tok cand ∧
      ((e = .invalidLength ∧ slot = 0#3 ∧ cand.length ≠ 5) ∨
        (e = .invalidSymbol ∧ lowestBadSlot r cand slot.toNat)) := by
  obtain ⟨n, cand, rfl, hreach, hfail⟩ := decodeCandidates_fail_first h
  rw [Nat.zero_add]
  refine ⟨cand, hreach, ?_⟩
  obtain ⟨rfl, hlen⟩ | hsymbol := decodeWord_fail_reason hfail
  · rw [decodeWord_of_length_ne r hlen] at hfail
    cases hfail
    exact .inl ⟨rfl, rfl, hlen⟩
  · exact .inr hsymbol

end Sys2Proof

namespace Sys2Proof.Machine

/-! ## How a command with a defined meaning ends -/

/-- The ends of a command, DECB with the empty separator apart (60 R211): success, or one of the failures with its cause,
each with the whole state that it leaves. -/
inductive Verdict (s : State) : Instr → State → Prop where
  | success {i : Instr} {t : State} (herr : t.err = 0b00#2) (htok : t.errtok = 0) (hslot : t.errslot = 0#3) :
      Verdict s i t
  | oddInput (hodd : s.inlen % 2 = 1) : Verdict s .encb (s.finishBuffer (.fail .invalidInputLength 0 0#3))
  | tokenLength (hlen : s.tlen ≠ 5#3) : Verdict s .decw (s.complete 0b10#2 0 0#3)
  | tokenSymbol {slot : BitVec 3} (hlen : s.tlen = 5#3)
      (hslot : lowestBadSlot s.rom (tokenLanes s.t) slot.toNat) : Verdict s .decw (s.complete 0b11#2 0 slot)
  | candidateLength {text cand : List Byte} {tok : Nat} (htext : s.inputIs text)
      (hreach : reachesCandidate s.rom (splitText s.sepBytes text) tok cand) (hlen : cand.length ≠ 5) :
      Verdict s .decb (s.finishBuffer (.fail .invalidLength tok 0#3))
  | candidateSymbol {text cand : List Byte} {tok : Nat} {slot : BitVec 3} (htext : s.inputIs text)
      (hreach : reachesCandidate s.rom (splitText s.sepBytes text) tok cand)
      (hslot : lowestBadSlot s.rom cand slot.toNat) :
      Verdict s .decb (s.finishBuffer (.fail .invalidSymbol tok slot))

theorem execDecw_verdict {s t : State} (he : execDecw s = .next t) : Verdict s .decw t := by
  obtain ⟨hlen, hx⟩ | ⟨-, w, -, hx⟩ | ⟨hlen, slot, hfail, -, hx⟩ := execDecw_cases s <;> cases hx.symm.trans he
  · exact .tokenLength hlen
  · exact .success rfl rfl rfl
  · obtain ⟨hlength, -⟩ | ⟨-, hslot⟩ := decodeWord_fail_reason hfail
    · cases hlength
    · exact .tokenSymbol hlen hslot

theorem execEncb_verdict {s t : State} (he : execEncb s = .next t) : Verdict s .encb t := by
  obtain ⟨hodd, hx⟩ | ⟨-, data, -, -, hx⟩ | ⟨-, -, hx⟩ := execEncb_cases s <;> cases hx.symm.trans he
  · exact .oddInput hodd
  · exact .success rfl rfl rfl

theorem execDecb_verdict {s t : State} (hsep : s.seplen ≠ 0) (he : execDecb s = .next t) : Verdict s .decb t := by
  obtain ⟨hzero, -⟩ | ⟨-, text, hin, -, hx⟩ | ⟨-, -, hx⟩ := execDecb_cases s
  · exact absurd hzero hsep
  · cases hx.symm.trans he
    have htext : s.inputIs text := State.inBytes_eq_some.1 hin
    cases hres : decodeBuffer s.rom text s.sepBytes with
    | ok out => exact .success rfl rfl rfl
    | fail e tok slot =>
      obtain ⟨cand, hreach, ⟨rfl, rfl, hlen⟩ | ⟨rfl, hslot⟩⟩ := decodeBuffer_fail_reason hres
      · exact .candidateLength htext hreach hlen
      · exact .candidateSymbol htext hreach hslot
  · cases hx.symm.trans he

theorem exec_verdict {i : Instr} {s t : State} (hne : ¬ emptySeparator i s) (he : exec i s = .next t) :
    Verdict s i t := by
  cases i with
  | encw => cases he; exact .success rfl rfl rfl
  | decw => exact execDecw_verdict he
  | encb => exact execEncb_verdict he
  | decb => exact execDecb_verdict (fun hzero => hne ⟨rfl, hzero⟩) he

/-! ## What the status fields tell -/

/-- Settles O46: each code is that of one kind of end, which gives the command and the cause. -/
theorem statusRecordsOfEachCode : Obligations.StatusRecordsOfEachCode := by
  intro i s t hne he
  cases exec_verdict hne he with
  | success herr htok hslot => exact ⟨fun _ => ⟨htok, hslot⟩, by simp [herr], by simp [herr], by simp [herr]⟩
  | oddInput => exact ⟨nofun, fun _ => ⟨rfl, rfl, rfl⟩, nofun, nofun⟩
  | tokenLength hlen => exact ⟨nofun, nofun, fun _ => ⟨rfl, .inl ⟨rfl, hlen, rfl⟩⟩, nofun⟩
  | tokenSymbol hlen hslot => exact ⟨nofun, nofun, nofun, fun _ => .inl ⟨rfl, hlen, rfl, hslot⟩⟩
  | candidateLength htext hreach hlen =>
    exact ⟨nofun, nofun, fun _ => ⟨rfl, .inr ⟨rfl, _, _, htext, hlen, hreach⟩⟩, nofun⟩
  | candidateSymbol htext hreach hslot =>
    exact ⟨nofun, nofun, nofun, fun _ => .inr ⟨rfl, _, _, htext, hreach, hslot⟩⟩

/-- Settles O31: an odd INLEN decides ENCB before any byte is read, an even one lets it succeed, and no other command
reports this code. -/
theorem invalidInputLengthExactlyForOddEncb : Obligations.InvalidInputLengthExactlyForOddEncb := by
  refine ⟨fun s t he => ?_, fun i s t hi hne he herr => ?_⟩
  · obtain ⟨hodd, hx⟩ | ⟨heven, data, -, -, hx⟩ | ⟨-, -, hx⟩ := execEncb_cases s <;> cases hx.symm.trans he
    · exact iff_of_true rfl hodd
    · exact iff_of_false nofun (by omega)
  · obtain ⟨-, hencb, -⟩ := statusRecordsOfEachCode i s t hne he
    exact hi (hencb herr).1

/-- Settles O45: the ends other than success write the status fields, and for a buffer command an OUT without bytes. -/
theorem failedCommandsLeaveNoResult : Obligations.FailedCommandsLeaveNoResult := by
  intro i s t hne he hfailed
  cases exec_verdict hne he with
  | success herr => exact absurd herr hfailed
  | tokenLength | tokenSymbol => exact ⟨rfl, rfl, fun _ => rfl, fun hbuffer => absurd (.inr rfl) hbuffer⟩
  | oddInput | candidateLength | candidateSymbol =>
    exact ⟨rfl, rfl, fun hword => by simp [isWordCommand] at hword, fun _ => ⟨rfl, fun _ => rfl⟩⟩

end Sys2Proof.Machine
end

section
/-! Proofs of the statements of 70_reset_and_hazards.md: what the reset event leaves, and that besides a completion it is
the only move that ends a command (R240, R242). -/

namespace Sys2Proof.Machine

/-- The reset event leaves the values of the state after reset, whatever it meets: AtReset speaks of no field that
survives it. -/
theorem State.atReset_resetEvent (s : State) : s.resetEvent.AtReset := resetLeavesTheListedValues.1

/-- Settles O2: the block ends a running command by its completion, which sets DONE, and a host operation leaves the
command running, so a command that ends otherwise was ended by the reset event. -/
theorem resetEndsACommandWithoutCompletion : Obligations.ResetEndsACommandWithoutCompletion := by
  refine ⟨fun s rest hturns => ?_, fun s t hstep hb hidle => ?_⟩
  · have hstep : step s = .next (State.resetEvent { s with turns := rest }) := by simp [step, hturns]
    exact ⟨_, hstep, State.atReset_resetEvent _, rfl, rfl, rfl⟩
  · obtain hblock | ⟨x, hx⟩ | hreset := s.next_move
    · have he := (step_of_blockNext_of_busy hblock hb).symm.trans hstep
      obtain ⟨-, hdone, -, -⟩ := (exec_completion he).handshake
      exact .inr ⟨hblock, hdone⟩
    · obtain ⟨rest, answers, draws, rfl⟩ := step_of_hostNext_of_busy hx hb hstep
      cases hb.symm.trans hidle
    · exact .inl hreset

end Sys2Proof.Machine
end
